-- ==== Sys2Proof/Word.lean ====
section
/-! DEFINITION. The words and values of the MPS floating-point engine: the command word, register numbers, bit arrays
and the value domain `Val` of 00_scope.md rule R12. -/

namespace Sys2Proof

/-- A command word: 32 bits, digit 0 the least significant (30_encoding.md R59, 00_scope.md R10). -/
abbrev CmdWord := BitVec 32

/-- A register number as a command word spells it: a 4-bit field, 0 to 15 (30_encoding.md R59, R61). -/
abbrev Reg := Fin 16

/-- A bit array: index 0 first, most significant, and the sign of a number (00_scope.md R9). -/
abbrev Bits := List Bool

/-- The value domain of 00_scope.md R12. A sign is `true` for negative. `fin q` is meant for `q ≠ 0` only (`Val.Ok`);
no function of the model builds `fin 0` from values that are `Ok`. -/
inductive Val where
  | nan
  | inf  (s : Bool)
  | zero (s : Bool)
  | fin  (q : Rat)
deriving DecidableEq, Repr

/-- The extended reals that `num` of R12 takes its values in; only rationals occur among the finite ones. -/
inductive ExtReal where
  | negInf
  | rat (q : Rat)
  | posInf
deriving DecidableEq, Repr

end Sys2Proof
end

