-- ==== Sys2Proof/Config.lean ====
section
/-! DEFINITION. The implementation parameters of 00_scope.md rule R6. They are a value, not constants, so that a
statement about every `Params` covers every engine the spec allows; a state carries the parameters of its engine. -/

namespace Sys2Proof

/-- The four parameters of 00_scope.md R6. `cap = none` is the spec's `unbounded`. -/
structure Params where
  nreg  : Nat
  cap   : Option Nat
  hostM : Nat
  hostE : Nat
deriving DecidableEq, Repr

/-- The defaults of R6: 16 registers, unbounded capacity, host reals of shape (52, 11). -/
def Params.default : Params := { nreg := 16, cap := none, hostM := 52, hostE := 11 }

/-- The legal values of R6. -/
def Params.legal (p : Params) : Bool :=
  decide (1 ≤ p.nreg) && decide (p.nreg ≤ 16) && (p.cap.all fun c => decide (3 ≤ c))
    && decide (1 ≤ p.hostM) && decide (1 ≤ p.hostE)

end Sys2Proof
end

