-- ==== Sys2Proof/Syntax.lean ====
section
/-! DEFINITION. The 30 commands of 30_encoding.md rule R62, one constructor per row of spec/opcode_table.json. A
constructor holds the fields its format uses (R60); the operand ports are not part of the word (R61). -/

namespace Sys2Proof

inductive Instr where
  | new     (rd : Reg)
  | newv    (rd : Reg)
  | getval  (rs1 : Reg)
  | getml   (rs1 : Reg)
  | getel   (rs1 : Reg)
  | getlen  (rs1 : Reg)
  | getbits (rs1 : Reg)
  | setmant (rd : Reg)
  | setexp  (rd : Reg)
  | setsign (rd : Reg) (f : Bool)
  | iszero  (rs1 : Reg)
  | isnan   (rs1 : Reg)
  | isinf   (rs1 : Reg)
  | ispos   (rs1 : Reg)
  | setzero (rd : Reg) (f : Bool)
  | setnan  (rd : Reg) (f : Bool)
  | setinf  (rd : Reg) (f : Bool)
  | add     (rd rs1 rs2 : Reg)
  | sub     (rd rs1 rs2 : Reg)
  | mul     (rd rs1 rs2 : Reg)
  | div     (rd rs1 rs2 : Reg)
  | eq      (rs1 rs2 : Reg)
  | ne      (rs1 rs2 : Reg)
  | lt      (rs1 rs2 : Reg)
  | le      (rs1 rs2 : Reg)
  | gt      (rs1 rs2 : Reg)
  | ge      (rs1 rs2 : Reg)
  | chkprec (rs1 rs2 : Reg)
  | cast    (rd : Reg)
  | copy    (rd rs1 : Reg)
deriving DecidableEq, Repr

end Sys2Proof
end

