-- ==== Sys2Proof/WellFormed.lean ====
section
/-! DEFINITION. The access table of 10_state.md rule R27 (which fields a command uses, reads and writes) and the check
of a command against the engine's number of registers (30_encoding.md rule R64, check 3). -/

namespace Sys2Proof

/-- The register fields a command uses, in the order rd, rs1, rs2 (30_encoding.md R60). -/
def Instr.uses : Instr → List Reg
  | .new rd | .newv rd | .setmant rd | .setexp rd | .setsign rd _
  | .setzero rd _ | .setnan rd _ | .setinf rd _ | .cast rd => [rd]
  | .getval rs1 | .getml rs1 | .getel rs1 | .getlen rs1 | .getbits rs1
  | .iszero rs1 | .isnan rs1 | .isinf rs1 | .ispos rs1 => [rs1]
  | .add rd rs1 rs2 | .sub rd rs1 rs2 | .mul rd rs1 rs2 | .div rd rs1 rs2 => [rd, rs1, rs2]
  | .eq rs1 rs2 | .ne rs1 rs2 | .lt rs1 rs2 | .le rs1 rs2 | .gt rs1 rs2 | .ge rs1 rs2
  | .chkprec rs1 rs2 => [rs1, rs2]
  | .copy rd rs1 => [rd, rs1]

/-- The registers marked "r" or "rw" in the table of R27: a command needs each of them valid (R64, check 4). -/
def Instr.reads : Instr → List Reg
  | .new _ | .newv _ => []
  | .setmant rd | .setexp rd | .setsign rd _
  | .setzero rd _ | .setnan rd _ | .setinf rd _ | .cast rd => [rd]
  | .getval rs1 | .getml rs1 | .getel rs1 | .getlen rs1 | .getbits rs1
  | .iszero rs1 | .isnan rs1 | .isinf rs1 | .ispos rs1 => [rs1]
  | .add _ rs1 rs2 | .sub _ rs1 rs2 | .mul _ rs1 rs2 | .div _ rs1 rs2 => [rs1, rs2]
  | .eq rs1 rs2 | .ne rs1 rs2 | .lt rs1 rs2 | .le rs1 rs2 | .gt rs1 rs2 | .ge rs1 rs2
  | .chkprec rs1 rs2 => [rs1, rs2]
  | .copy _ rs1 => [rs1]

/-- The register marked "w" or "rw" in the table of R27, if the command writes one. -/
def Instr.writes : Instr → Option Reg
  | .new rd | .newv rd | .setmant rd | .setexp rd | .setsign rd _
  | .setzero rd _ | .setnan rd _ | .setinf rd _ | .cast rd
  | .add rd _ _ | .sub rd _ _ | .mul rd _ _ | .div rd _ _ | .copy rd _ => some rd
  | .getval _ | .getml _ | .getel _ | .getlen _ | .getbits _
  | .iszero _ | .isnan _ | .isinf _ | .ispos _
  | .eq _ _ | .ne _ _ | .lt _ _ | .le _ _ | .gt _ _ | .ge _ _ | .chkprec _ _ => none

/-- A command is well formed on an engine when every register field it uses holds a number below NREG
(R64, check 3). Its word is legal exactly then (R65). -/
def Instr.wellFormed (p : Params) (i : Instr) : Bool :=
  i.uses.all fun r => decide (r.val < p.nreg)

end Sys2Proof
end

