-- ==== Sys2Proof/Decode.lean ====
section
/-! DEFINITION. The command decoder and encoder: 30_encoding.md rules R59 to R65. The decoder is total on the 2^32
words and rejects by name; an illegal word is answered with IllegalCommand by Machine/Port.lean. Check 3 of R64
(register numbers below NREG) needs the engine's parameters and stands in Machine/Ops.lean. -/

namespace Sys2Proof

/-- `W[hi:lo]` of 00_scope.md R10: the binary digits `hi` down to `lo` of a natural number, as a natural number. -/
def slice (w hi lo : Nat) : Nat := w / 2 ^ lo % 2 ^ (hi - lo + 1)

/-- The six formats of 30_encoding.md R60. -/
inductive Format where
  | D | DF | S | DS | DSS | SS
deriving DecidableEq, Repr

/-- The `mask` column of R60: the digits that are fixed for every command of the format. -/
def Format.mask : Format → CmdWord
  | .D   => 0xFF0FFFFF
  | .DF  => 0xFF0FFFFE
  | .S   => 0xFFF0FFFF
  | .DS  => 0xFF00FFFF
  | .DSS => 0xFF000FFF
  | .SS  => 0xFFF00FFF

/-- The operand fields of a command word (R59). -/
structure Fields where
  rd  : Reg
  rs1 : Reg
  rs2 : Reg
  f   : Bool
deriving DecidableEq, Repr

/-- The fields of a word at their places in R59, used as they stand (R61). -/
def fieldsOf (cw : CmdWord) : Fields :=
  { rd  := Fin.ofNat 16 (slice cw.toNat 23 20)
    rs1 := Fin.ofNat 16 (slice cw.toNat 19 16)
    rs2 := Fin.ofNat 16 (slice cw.toNat 15 12)
    f   := slice cw.toNat 0 0 == 1 }

/-- The opcode field, `cw[31:24]` (R59). -/
def opcodeOf (cw : CmdWord) : Nat := slice cw.toNat 31 24

/-- One row of the opcode map (R62): an opcode, its format, and the command that the fields of a word make. -/
structure OpcodeRow where
  opcode : Nat
  format : Format
  build  : Fields → Instr

/-- The `match` of a row: `opcode << 24` (R60). -/
def OpcodeRow.matchWord (r : OpcodeRow) : CmdWord := BitVec.ofNat 32 (r.opcode * 2 ^ 24)

/-- The codec rows of the opcode map (R62). -/
def codecRows : List OpcodeRow := [
  ⟨0x10, .D,  fun x => .new x.rd⟩,
  ⟨0x11, .D,  fun x => .newv x.rd⟩,
  ⟨0x12, .S,  fun x => .getval x.rs1⟩,
  ⟨0x13, .S,  fun x => .getml x.rs1⟩,
  ⟨0x14, .S,  fun x => .getel x.rs1⟩,
  ⟨0x15, .S,  fun x => .getlen x.rs1⟩,
  ⟨0x16, .S,  fun x => .getbits x.rs1⟩,
  ⟨0x17, .D,  fun x => .setmant x.rd⟩,
  ⟨0x18, .D,  fun x => .setexp x.rd⟩,
  ⟨0x19, .DF, fun x => .setsign x.rd x.f⟩,
  ⟨0x20, .S,  fun x => .iszero x.rs1⟩,
  ⟨0x21, .S,  fun x => .isnan x.rs1⟩,
  ⟨0x22, .S,  fun x => .isinf x.rs1⟩,
  ⟨0x23, .S,  fun x => .ispos x.rs1⟩,
  ⟨0x24, .DF, fun x => .setzero x.rd x.f⟩,
  ⟨0x25, .DF, fun x => .setnan x.rd x.f⟩,
  ⟨0x26, .DF, fun x => .setinf x.rd x.f⟩]

/-- The arithmetic, comparator and caster rows of the opcode map (R62). -/
def operationRows : List OpcodeRow := [
  ⟨0x30, .DSS, fun x => .add x.rd x.rs1 x.rs2⟩,
  ⟨0x31, .DSS, fun x => .sub x.rd x.rs1 x.rs2⟩,
  ⟨0x32, .DSS, fun x => .mul x.rd x.rs1 x.rs2⟩,
  ⟨0x33, .DSS, fun x => .div x.rd x.rs1 x.rs2⟩,
  ⟨0x40, .SS,  fun x => .eq x.rs1 x.rs2⟩,
  ⟨0x41, .SS,  fun x => .ne x.rs1 x.rs2⟩,
  ⟨0x42, .SS,  fun x => .lt x.rs1 x.rs2⟩,
  ⟨0x43, .SS,  fun x => .le x.rs1 x.rs2⟩,
  ⟨0x44, .SS,  fun x => .gt x.rs1 x.rs2⟩,
  ⟨0x45, .SS,  fun x => .ge x.rs1 x.rs2⟩,
  ⟨0x46, .SS,  fun x => .chkprec x.rs1 x.rs2⟩,
  ⟨0x50, .D,   fun x => .cast x.rd⟩,
  ⟨0x51, .DS,  fun x => .copy x.rd x.rs1⟩]

/-- The opcode map of R62, all 30 rows. -/
def opcodeMap : List OpcodeRow := codecRows ++ operationRows

/-- Why a word is rejected by the decoder: check 1 or check 2 of R64. -/
inductive DecodeError where
  /-- Check 1: the opcode is not one of the 30 of R62. -/
  | unassignedOpcode
  /-- Check 2: a must-be-zero digit is not zero (R63). -/
  | reservedNotZero
deriving DecidableEq, Repr

/-- The row of the opcode map with the given opcode. -/
def findRow (opcode : Nat) : Option OpcodeRow := opcodeMap.find? fun r => r.opcode == opcode

/-- The decoder: checks 1 and 2 of R64, in that order, then the command the fields make. -/
def decode (cw : CmdWord) : Except DecodeError Instr :=
  match findRow (opcodeOf cw) with
  | none => .error .unassignedOpcode
  | some row =>
    if cw &&& row.format.mask = row.matchWord then .ok (row.build (fieldsOf cw)) else .error .reservedNotZero

/-- A word from its fields: the layout of R59, digits 11 to 1 zero. -/
def assemble (opcode : Nat) (x : Fields) : CmdWord :=
  BitVec.ofNat 32 (opcode * 2 ^ 24 + x.rd.val * 2 ^ 20 + x.rs1.val * 2 ^ 16 + x.rs2.val * 2 ^ 12 + x.f.toNat)

/-- The fields of a format-D word: all but rd zero. -/
def fieldsD (rd : Reg) : Fields := { rd, rs1 := 0, rs2 := 0, f := false }
def fieldsDF (rd : Reg) (f : Bool) : Fields := { rd, rs1 := 0, rs2 := 0, f }
def fieldsS (rs1 : Reg) : Fields := { rd := 0, rs1, rs2 := 0, f := false }
def fieldsDS (rd rs1 : Reg) : Fields := { rd, rs1, rs2 := 0, f := false }
def fieldsDSS (rd rs1 rs2 : Reg) : Fields := { rd, rs1, rs2, f := false }
def fieldsSS (rs1 rs2 : Reg) : Fields := { rd := 0, rs1, rs2, f := false }

/-- The encoder: the one word that spells a command, from the opcode map of R62 and the formats of R60. -/
def encode : Instr → CmdWord
  | .new rd          => assemble 0x10 (fieldsD rd)
  | .newv rd         => assemble 0x11 (fieldsD rd)
  | .getval rs1      => assemble 0x12 (fieldsS rs1)
  | .getml rs1       => assemble 0x13 (fieldsS rs1)
  | .getel rs1       => assemble 0x14 (fieldsS rs1)
  | .getlen rs1      => assemble 0x15 (fieldsS rs1)
  | .getbits rs1     => assemble 0x16 (fieldsS rs1)
  | .setmant rd      => assemble 0x17 (fieldsD rd)
  | .setexp rd       => assemble 0x18 (fieldsD rd)
  | .setsign rd f    => assemble 0x19 (fieldsDF rd f)
  | .iszero rs1      => assemble 0x20 (fieldsS rs1)
  | .isnan rs1       => assemble 0x21 (fieldsS rs1)
  | .isinf rs1       => assemble 0x22 (fieldsS rs1)
  | .ispos rs1       => assemble 0x23 (fieldsS rs1)
  | .setzero rd f    => assemble 0x24 (fieldsDF rd f)
  | .setnan rd f     => assemble 0x25 (fieldsDF rd f)
  | .setinf rd f     => assemble 0x26 (fieldsDF rd f)
  | .add rd rs1 rs2  => assemble 0x30 (fieldsDSS rd rs1 rs2)
  | .sub rd rs1 rs2  => assemble 0x31 (fieldsDSS rd rs1 rs2)
  | .mul rd rs1 rs2  => assemble 0x32 (fieldsDSS rd rs1 rs2)
  | .div rd rs1 rs2  => assemble 0x33 (fieldsDSS rd rs1 rs2)
  | .eq rs1 rs2      => assemble 0x40 (fieldsSS rs1 rs2)
  | .ne rs1 rs2      => assemble 0x41 (fieldsSS rs1 rs2)
  | .lt rs1 rs2      => assemble 0x42 (fieldsSS rs1 rs2)
  | .le rs1 rs2      => assemble 0x43 (fieldsSS rs1 rs2)
  | .gt rs1 rs2      => assemble 0x44 (fieldsSS rs1 rs2)
  | .ge rs1 rs2      => assemble 0x45 (fieldsSS rs1 rs2)
  | .chkprec rs1 rs2 => assemble 0x46 (fieldsSS rs1 rs2)
  | .cast rd         => assemble 0x50 (fieldsD rd)
  | .copy rd rs1     => assemble 0x51 (fieldsDS rd rs1)

/-- The command word that `nbits` bits numbered as spec/opcode_table.json numbers them make: one 32-bit word, digit 0
least significant (R59). Bits above `nbits` are zero, and a bit at place 32 or above belongs to no command word. -/
def tableWord (nbits w : Nat) : CmdWord := BitVec.ofNat 32 (w % 2 ^ nbits)

/-- The command the decoder reads from such bits; none where it refuses, or where the bits do not fit 32 digits. -/
def decodeTableWord (nbits w : Nat) : Option Instr :=
  if w % 2 ^ nbits < 2 ^ 32 then
    match decode (tableWord nbits w) with
    | .ok i => some i
    | .error _ => none
  else none

end Sys2Proof
end

