-- ==== Sys2Proof/Machine/State.lean ====
section
/-! DEFINITION. The state of the machine, as plain data: the register file of 10_state.md (the whole architectural
state, 00_scope.md rule R7), the parameters of the engine, and what stands on its ports. -/

namespace Sys2Proof.Machine

/-- One instance: the fields `ml`, `el`, `bits` of 10_state.md R20. `bit_array_length` is derived (R21), the decoded
value is not stored (R23). -/
structure Instance where
  ml   : Nat
  el   : Nat
  bits : Bits
deriving DecidableEq, Repr

/-- What the operand ports of 30_encoding.md R57 carry. `DLEN` is the length of `d`. The host real on port `V` is held
packed (00_scope.md R10): the port's `HOST_M + HOST_E + 1` bits are `unpack` of `v` at that length. -/
structure Ports where
  a : Nat
  b : Nat
  d : Bits
  v : Nat
deriving DecidableEq, Repr

/-- One transaction as the host presents it: the command word and the operand ports (30_encoding.md R56). -/
structure Command where
  cw    : CmdWord
  ports : Ports
deriving DecidableEq, Repr

/-- What the host can do to the engine: present a command (R56), or assert the reset input between two commands
(70_reset_and_hazards.md R240). -/
inductive HostEvent where
  | command (c : Command)
  | reset
deriving DecidableEq, Repr

/-- The five errors of 60_exceptions.md R210. -/
inductive Error where
  | configurationError
  | lengthMismatch
  | precisionMismatch
  | noInstance
  | illegalCommand
deriving DecidableEq, Repr

/-- The payload kinds of 30_encoding.md R58. -/
inductive Payload where
  | none
  | bool (x : Bool)
  | nat  (x : Nat)
  | seq  (x : Bits)
  | real (x : Bits)
deriving DecidableEq, Repr

/-- A response (R58): status OK with the payload of the command's rule, or an error status with no payload. -/
inductive Response where
  | ok    (p : Payload)
  | error (e : Error)
deriving DecidableEq, Repr

/-- The machine. `regs` is the architectural state: entry `i` is `N[i]`, `none` when `valid = 0`
(10_state.md R20, R26; 93_implementation_defined.md U7). The other fields are the engine's build parameters and its
ports; no command reads `response` or `inbox`, and no step writes `params`. -/
structure State where
  /-- The parameters of 00_scope.md R6, fixed when the engine is built (70_reset_and_hazards.md R241). -/
  params   : Params
  /-- The instance registers `N[0] .. N[NREG-1]`. -/
  regs     : List (Option Instance)
  /-- The operand ports, as presented with the command being executed (30_encoding.md R57). -/
  ports    : Ports
  /-- The host's events still to be taken, oldest first (20_memory.md R45). -/
  inbox    : List HostEvent
  /-- The response the step just taken returned; none when it was no command (30_encoding.md R56, R58). -/
  response : Option Response
deriving DecidableEq, Repr

/-- Nothing stops the engine: an error is a status and the next command is accepted as after OK
(60_exceptions.md R218), and every command terminates (70_reset_and_hazards.md R243). So there is no fault. -/
inductive Fault where
deriving DecidableEq, Repr

/-- Reasons for which the model gives a step no meaning. -/
inductive Refusal where
  /-- Raised by an arm of `exec` whose command has no meaning in the model yet (none is left). Safe: the model stops. -/
  | notModelled (mnemonic : String)
deriving DecidableEq, Repr

/-- The outcome of a step of this machine. -/
abbrev Result := Host.Outcome State Fault Refusal

/-- The operand ports when nothing has been presented yet: DESIGN CHOICE all zero and empty (log 4). -/
def Ports.reset : Ports := { a := 0, b := 0, d := [], v := 0 }

/-- A register file in which no register holds an instance. -/
def noInstances (p : Params) : List (Option Instance) := List.replicate p.nreg none

/-- The machine right after reset, with the default parameters of R6: every `valid` bit is 0
(10_state.md R33, 70_reset_and_hazards.md R240). -/
def State.reset : State :=
  { params := Params.default
    regs := noInstances Params.default
    ports := Ports.reset
    inbox := []
    response := none }

end Sys2Proof.Machine
end

