-- ==== Sys2Proof/Machine/Ops.lean ====
section
/-! DEFINITION. The operations every command shares: reading and writing an instance register, responding, raising an
error, and the common checks of 30_encoding.md rule R64. The engine has no memory (20_memory.md R40). -/

namespace Sys2Proof.Machine

/-- `N[r]`, the instance it holds; none when `valid = 0` (10_state.md R26) or when there is no such register. -/
def State.inst (s : State) (r : Reg) : Option Instance := (s.regs[r.val]?).join

/-- `N[r] <- n` (00_scope.md R15): all four fields of one register at once, no other register (10_state.md R25). -/
def State.setInst (s : State) (r : Reg) (n : Instance) : State :=
  { s with regs := s.regs.set r.val (some n) }

/-- `respond OK` with a payload (00_scope.md R15). -/
def State.respond (s : State) (p : Payload) : State := { s with response := some (.ok p) }

/-- `raise e` (00_scope.md R15): the command ends with that error status, no payload and no change to any register
(60_exceptions.md R216). This is the engine's whole exception entry (R218): there is no trap, nothing is saved, and
there is no return to model. -/
def State.raise (s : State) (e : Error) : State := { s with response := some (.error e) }

/-- The 4-bit status codes of 60_exceptions.md R210. -/
def Error.code : Error → BitVec 4
  | .configurationError => 0x1
  | .lengthMismatch     => 0x2
  | .precisionMismatch  => 0x3
  | .noInstance         => 0x4
  | .illegalCommand     => 0x5

/-- The status a response carries (R210). -/
def Response.status : Response → BitVec 4
  | .ok _    => 0x0
  | .error e => e.code

/-- A register number the engine has (30_encoding.md R64, check 3). -/
def State.hasReg (s : State) (r : Reg) : Bool := decide (r.val < s.params.nreg)

/-- The common checks for a command that only writes a register: check 3 of R64; check 4 asks nothing. -/
def withDest (s : State) (rd : Reg) (body : Result) : Result :=
  if s.hasReg rd then body else .next (s.raise .illegalCommand)

/-- The common checks for a command that reads one register `r` (a source, or in place) and uses the fields `used`:
check 3 of R64 for every used field, then check 4 for `r`. -/
def withSource (s : State) (used : List Reg) (r : Reg) (body : Instance → Result) : Result :=
  if used.all s.hasReg then
    match s.inst r with
    | some n => body n
    | none => .next (s.raise .noInstance)
  else .next (s.raise .illegalCommand)

/-- The common checks for a command that reads two registers. -/
def withSources (s : State) (used : List Reg) (rs1 rs2 : Reg) (body : Instance → Instance → Result) : Result :=
  if used.all s.hasReg then
    match s.inst rs1, s.inst rs2 with
    | some x, some y => body x y
    | _, _ => .next (s.raise .noInstance)
  else .next (s.raise .illegalCommand)

/-- Write a whole instance register and respond OK without a payload. -/
def writeOk (s : State) (rd : Reg) (n : Instance) : Result := .next ((s.setInst rd n).respond .none)

/-- Respond OK with a payload and write nothing. -/
def answer (s : State) (p : Payload) : Result := .next (s.respond p)

/-- Two instances of one shape (60_exceptions.md R213). -/
def sameShape (x y : Instance) : Bool := decide (x.ml = y.ml) && decide (x.el = y.el)

/-- A step in which the host presents nothing: no register changes and there is no response (log 9). -/
def State.idle (s : State) : State := { s with response := none }

/-- The reset input (70_reset_and_hazards.md R240): every `valid` bit to 0, nothing else of the engine to reset, and no
response. -/
def State.resetEngine (s : State) : State := { s with regs := noInstances s.params, response := none }

end Sys2Proof.Machine
end

