-- ==== Sys2Proof/Machine/Operands.lean ====
section
/-! DEFINITION. Operand forms: packing of bit arrays (00_scope.md R10), the fields of an instance (10_state.md R22),
field writes, and the width check on the ports A and B (40_codec.md R84). -/

namespace Sys2Proof.Machine

/-- `pack(b)`: the sequence read as a binary numeral, first element most significant (00_scope.md R10). -/
def pack (b : Bits) : Nat := b.foldl (fun n x => 2 * n + x.toNat) 0

/-- `unpack(n, w)`: the `w`-bit sequence, most significant digit first, whose `pack` is `n` (00_scope.md R10). -/
def unpack (n : Nat) : Nat → Bits
  | 0 => []
  | w + 1 => n.testBit w :: unpack n w

/-- `rep(x, n)` (00_scope.md R9). -/
def rep (x : Bool) (n : Nat) : Bits := List.replicate n x

/-- The sign, `bits[0]` (10_state.md R22). -/
def signOf (b : Bits) : Bool := b.headD false

/-- The exponent field as a sequence, `bits[1..e]` (R22). -/
def expBits (b : Bits) (e : Nat) : Bits := (b.drop 1).take e

/-- The mantissa field as a sequence, `bits[e+1..e+m]` (R22). -/
def mantBits (b : Bits) (m e : Nat) : Bits := (b.drop (e + 1)).take m

/-- `exp_field = pack(bits[1..e])` (R22). -/
def expField (b : Bits) (e : Nat) : Nat := pack (expBits b e)

/-- `mant_field = pack(bits[e+1..e+m])` (R22). -/
def mantField (b : Bits) (m e : Nat) : Nat := pack (mantBits b m e)

/-- `bits[start .. start + len(x) - 1] <- x`: one field replaced, every other bit as it was (20_memory.md R44). -/
def replaceField (b : Bits) (start : Nat) (x : Bits) : Bits :=
  b.take start ++ x ++ b.drop (start + x.length)

/-- `checkwidths(A, B)` passes (40_codec.md R84). -/
def widthsOk (p : Params) (a b : Nat) : Bool :=
  decide (1 ≤ a) && decide (1 ≤ b) && p.cap.all fun c => decide (a + b + 1 ≤ c)

/-- `checkwidths(A, B)` on the ports, before the rest of a command (40_codec.md R84). -/
def withWidths (s : State) (body : Result) : Result :=
  if widthsOk s.params s.ports.a s.ports.b then body else .next (s.raise .configurationError)

/-- The bit array that the port V carries: `HOST_M + HOST_E + 1` bits, sign first (30_encoding.md R57, 40_codec.md R85). -/
def hostBits (p : Params) (v : Nat) : Bits := unpack v (p.hostM + p.hostE + 1)

end Sys2Proof.Machine
end

