-- ==== Sys2Proof/Machine/Values.lean ====
section
/-! DEFINITION. The value domain's functions (00_scope.md R12), the format constants (R13) and rounding (R14). All
values are exact rationals (R11). -/

namespace Sys2Proof.Machine

/-- Values inside the domain of 00_scope.md R12: a `fin` holds a nonzero rational. -/
def valOk : Val → Bool
  | .fin q => decide (q ≠ 0)
  | _ => true

/-- `sign(v)` of R12; it is not defined for NaN, and no rule uses it there. -/
def signBit : Val → Bool
  | .nan => false
  | .inf s => s
  | .zero s => s
  | .fin q => decide (q < 0)

/-- `neg(v)` of R12. -/
def neg : Val → Val
  | .nan => .nan
  | .inf s => .inf (!s)
  | .zero s => .zero (!s)
  | .fin q => .fin (-q)

/-- `num(v)` of R12: the extended real a non-NaN value stands for. -/
def num : Val → Option ExtReal
  | .nan => none
  | .inf false => some .posInf
  | .inf true => some .negInf
  | .zero _ => some (.rat 0)
  | .fin q => some (.rat q)

/-- `num(v)` of a finite value, as a rational. -/
def finiteNum : Val → Option Rat
  | .zero _ => some 0
  | .fin q => some q
  | _ => none

/-- The order of the extended reals (42_comparator.md R162). -/
def ExtReal.lt : ExtReal → ExtReal → Bool
  | .rat p, .rat q => decide (p < q)
  | .negInf, .negInf => false
  | .negInf, _ => true
  | .rat _, .posInf => true
  | _, _ => false

def ExtReal.le : ExtReal → ExtReal → Bool
  | .rat p, .rat q => decide (p ≤ q)
  | .negInf, _ => true
  | _, .posInf => true
  | _, _ => false

/-- `2^k` for an integer `k`: the exact rational (R11). -/
def pow2 : Int → Rat
  | .ofNat n => ((2 ^ n : Nat) : Rat)
  | .negSucc n => mkRat 1 (2 ^ (n + 1))

/-- `bias(e) = 2^(e-1) - 1` (R13). -/
def bias (e : Nat) : Int := (2 ^ (e - 1) : Nat) - 1

/-- `EFMAX(e) = 2^e - 1`, the all-ones exponent field (R13). -/
def efmax (e : Nat) : Nat := 2 ^ e - 1

/-- `emin(e) = 1 - bias(e)` (R13). -/
def emin (e : Nat) : Int := 1 - bias e

/-- `emax(e) = EFMAX(e) - 1 - bias(e)` (R13). -/
def emax (e : Nat) : Int := (efmax e : Int) - 1 - bias e

/-- `floorlog2(a)` for a rational `a > 0`: the integer `E` with `2^E <= a < 2^(E+1)` (R14). The logarithms of numerator
and denominator leave two candidates. -/
def floorlog2 (a : Rat) : Int :=
  let k : Int := (a.num.toNat.log2 : Int) - (a.den.log2 : Int)
  if pow2 k ≤ a then k else k - 1

/-- `RNE(x)` for a rational `x >= 0`: round to nearest integer, ties to even (R14). -/
def rne (x : Rat) : Nat :=
  let f := x.floor.toNat
  let r := x - (f : Rat)
  if r < 1 / 2 then f
  else if 1 / 2 < r then f + 1
  else if f % 2 = 0 then f else f + 1

/-- `|q|` on rationals. -/
def absRat (q : Rat) : Rat := if q < 0 then -q else q

end Sys2Proof.Machine
end

