-- ==== Sys2Proof/Machine/NumberFormat.lean ====
section
/-! DEFINITION. The number format: `decode` and `encode` of 40_codec.md rules R80 to R83 and the host format of R85.
They are named `decodeNum` and `encodeNum` here, beside the command decoder `Sys2Proof.decode`. -/

namespace Sys2Proof.Machine

/-- `(-1)^s`. -/
def signFactor (s : Bool) : Rat := if s then -1 else 1

/-- `decode(b, m, e)` of 40_codec.md R80, its five cases in the source's order. -/
def decodeNum (b : Bits) (m e : Nat) : Val :=
  let s := signOf b
  let ef := expField b e
  let mf := mantField b m e
  if ef = 0 ∧ mf = 0 then .zero s
  else if ef = 0 then .fin (signFactor s * ((mf : Rat) / (2 ^ m : Nat)) * pow2 (1 - bias e))
  else if ef = efmax e ∧ mf = 0 then .inf s
  else if ef = efmax e then .nan
  else .fin (signFactor s * (1 + (mf : Rat) / (2 ^ m : Nat)) * pow2 ((ef : Int) - bias e))

/-- The zero of a shape with a sign. -/
def zeroBits (s : Bool) (m e : Nat) : Bits := [s] ++ rep false e ++ rep false m

/-- The infinity of a shape with a sign. -/
def infBits (s : Bool) (m e : Nat) : Bits := [s] ++ rep true e ++ rep false m

/-- The NaN pattern whose mantissa is 1 followed by zeros, with a sign (40_codec.md R83, R101). -/
def nanBits (s : Bool) (m e : Nat) : Bits := [s] ++ rep true e ++ [true] ++ rep false (m - 1)

/-- The canonical NaN of a shape (40_codec.md R83): sign 0. -/
def canonicalNaN (m e : Nat) : Bits := nanBits false m e

/-- The exponent and mantissa fields of a rounded magnitude as one number, `K` of 40_codec.md R81. -/
def packedMagnitude (a : Rat) (m e : Nat) : Nat :=
  let eq := max (floorlog2 a) (emin e)
  let n := rne (a / pow2 (eq - (m : Int)))
  (eq - emin e).toNat * 2 ^ m + n

/-- `encode(v, m, e)` of 40_codec.md R81: one rounding to nearest, ties to even (R82); overflow to the signed infinity,
decided after rounding; gradual underflow, an underflowed zero keeping the sign. -/
def encodeNum (v : Val) (m e : Nat) : Bits :=
  match v with
  | .nan => canonicalNaN m e
  | .inf s => infBits s m e
  | .zero s => zeroBits s m e
  | .fin q =>
    let s := decide (q < 0)
    let k := packedMagnitude (absRat q) m e
    if efmax e * 2 ^ m ≤ k then infBits s m e
    else [s] ++ unpack (k / 2 ^ m) e ++ unpack (k % 2 ^ m) m

/-- `val(i)` of 00_scope.md R15: the decoded value of an instance, computed when asked for (10_state.md R23). -/
def Instance.val (n : Instance) : Val := decodeNum n.bits n.ml n.el

/-- An instance of shape `(m, e)` that holds a value, rounded once. -/
def instanceOf (v : Val) (m e : Nat) : Instance := { ml := m, el := e, bits := encodeNum v m e }

/-- `fromhost(V)` of 40_codec.md R85, from the packed port. -/
def fromHost (p : Params) (v : Nat) : Val := decodeNum (hostBits p v) p.hostM p.hostE

/-- `tohost(v)` of 40_codec.md R85. -/
def toHost (p : Params) (v : Val) : Bits := encodeNum v p.hostM p.hostE

end Sys2Proof.Machine
end

