-- ==== Sys2Proof/Machine/Flags.lean ====
section
/-! DEFINITION. The engine has no flags, condition codes or floating-point exception flags (10_state.md R30). What the
source calls "special-value flags derived from bit patterns" (00_scope.md R2) are the four predicates below: views of an
instance's bits, not state (10_state.md R24; 40_codec.md R96 to R99). -/

namespace Sys2Proof.Machine

/-- ISZERO's view (40_codec.md R96). -/
def Instance.isZero (n : Instance) : Bool := expField n.bits n.el == 0 && mantField n.bits n.ml n.el == 0

/-- ISNAN's view (40_codec.md R97). -/
def Instance.isNaN (n : Instance) : Bool := expField n.bits n.el == efmax n.el && mantField n.bits n.ml n.el != 0

/-- ISINF's view (40_codec.md R98). -/
def Instance.isInf (n : Instance) : Bool := expField n.bits n.el == efmax n.el && mantField n.bits n.ml n.el == 0

/-- ISPOS's view: the sign bit alone, for every class (40_codec.md R99). -/
def Instance.isPos (n : Instance) : Bool := !signOf n.bits

end Sys2Proof.Machine
end

