-- ==== Sys2Proof/Machine/Arithmetic.lean ====
section
/-! DEFINITION. The Arithmetic Unit: exact operations on `Val` (41_arithmetic.md R131 to R133) and ADD, SUB, MUL, DIV
(R134 to R137) over one common body (R130). -/

namespace Sys2Proof.Machine

/-- `vadd` of 41_arithmetic.md R131, its cases in the rule's order. -/
def vadd (x y : Val) : Val :=
  match x, y with
  | .nan, _ => .nan
  | _, .nan => .nan
  | .inf s, .inf t => if s = t then .inf s else .nan
  | .inf s, _ => .inf s
  | _, .inf t => .inf t
  | .zero s, .zero t => .zero (s && t)
  | .zero _, y => y
  | x, .zero _ => x
  | .fin p, .fin q => if p + q = 0 then .zero false else .fin (p + q)

/-- `vsub` of R131: addition of the negation, for every class. -/
def vsub (x y : Val) : Val := vadd x (neg y)

/-- `vmul` of R132; the sign is the XOR of the operand signs. -/
def vmul (x y : Val) : Val :=
  let s := signBit x ^^ signBit y
  match x, y with
  | .nan, _ => .nan
  | _, .nan => .nan
  | .inf _, .zero _ => .nan
  | .zero _, .inf _ => .nan
  | .inf _, _ => .inf s
  | _, .inf _ => .inf s
  | .zero _, _ => .zero s
  | _, .zero _ => .zero s
  | .fin p, .fin q => .fin (p * q)

/-- `vdiv` of R133; the quotient is the exact rational. -/
def vdiv (x y : Val) : Val :=
  let s := signBit x ^^ signBit y
  match x, y with
  | .nan, _ => .nan
  | _, .nan => .nan
  | .inf _, .inf _ => .nan
  | .inf _, _ => .inf s
  | _, .inf _ => .zero s
  | .zero _, .zero _ => .nan
  | _, .zero _ => .inf s
  | .zero _, _ => .zero s
  | .fin p, .fin q => .fin (p / q)

/-- The common body of R130: shapes, both operands decoded, the exact result, one rounding, one write. -/
def binop (op : Val → Val → Val) (rd rs1 rs2 : Reg) (s : State) : Result :=
  withSources s [rd, rs1, rs2] rs1 rs2 fun x y =>
    if sameShape x y then writeOk s rd (instanceOf (op x.val y.val) x.ml x.el)
    else .next (s.raise .precisionMismatch)

/-- ADD (41_arithmetic.md R134). -/
def execAdd (rd rs1 rs2 : Reg) (s : State) : Result := binop vadd rd rs1 rs2 s

/-- SUB (41_arithmetic.md R135). -/
def execSub (rd rs1 rs2 : Reg) (s : State) : Result := binop vsub rd rs1 rs2 s

/-- MUL (41_arithmetic.md R136). -/
def execMul (rd rs1 rs2 : Reg) (s : State) : Result := binop vmul rd rs1 rs2 s

/-- DIV (41_arithmetic.md R137). -/
def execDiv (rd rs1 rs2 : Reg) (s : State) : Result := binop vdiv rd rs1 rs2 s

end Sys2Proof.Machine
end

