-- ==== Sys2Proof/Machine/Caster.lean ====
section
/-! DEFINITION. The Precision Caster: CAST and COPY (43_caster.md R190, R191). -/

namespace Sys2Proof.Machine

/-- CAST (43_caster.md R190): the width check first; the current widths are a no-op that keeps every bit, also of a NaN
that is not canonical; otherwise decode and encode, `ml`, `el` and `bits` replaced together. -/
def execCast (rd : Reg) (s : State) : Result :=
  withSource s [rd] rd fun n => withWidths s <|
    if s.ports.a = n.ml ∧ s.ports.b = n.el then answer s .none
    else writeOk s rd (instanceOf n.val s.ports.a s.ports.b)

/-- COPY (43_caster.md R191): bit for bit, nothing is decoded. -/
def execCopy (rd rs1 : Reg) (s : State) : Result :=
  withSource s [rd, rs1] rs1 fun n => writeOk s rd n

end Sys2Proof.Machine
end

