-- ==== Sys2Proof/Machine/Codec.lean ====
section
/-! DEFINITION. The 17 commands of the Bit-Field Codec (40_codec.md R86 to R102). -/

namespace Sys2Proof.Machine

/-- NEW (40_codec.md R86): a new instance of the widths on A and B, every bit 0. -/
def execNew (rd : Reg) (s : State) : Result :=
  withDest s rd <| withWidths s <|
    writeOk s rd { ml := s.ports.a, el := s.ports.b, bits := rep false (s.ports.a + s.ports.b + 1) }

/-- NEWV (40_codec.md R87): a new instance that holds the host real on V. -/
def execNewv (rd : Reg) (s : State) : Result :=
  withDest s rd <| withWidths s <|
    writeOk s rd (instanceOf (fromHost s.params s.ports.v) s.ports.a s.ports.b)

/-- GETVAL (40_codec.md R88). -/
def execGetval (rs1 : Reg) (s : State) : Result :=
  withSource s [rs1] rs1 fun n => answer s (.real (toHost s.params n.val))

/-- GETML (40_codec.md R89). -/
def execGetml (rs1 : Reg) (s : State) : Result :=
  withSource s [rs1] rs1 fun n => answer s (.nat n.ml)

/-- GETEL (40_codec.md R90). -/
def execGetel (rs1 : Reg) (s : State) : Result :=
  withSource s [rs1] rs1 fun n => answer s (.nat n.el)

/-- GETLEN (40_codec.md R91): derived, never stored. -/
def execGetlen (rs1 : Reg) (s : State) : Result :=
  withSource s [rs1] rs1 fun n => answer s (.nat (n.ml + n.el + 1))

/-- GETBITS (40_codec.md R92). -/
def execGetbits (rs1 : Reg) (s : State) : Result :=
  withSource s [rs1] rs1 fun n => answer s (.seq n.bits)

/-- SETMANT and SETEXP: a field of `width` bits from `start` replaced by the port D, or LengthMismatch
(40_codec.md R93, R94). -/
def setField (s : State) (rd : Reg) (n : Instance) (start width : Nat) : Result :=
  if s.ports.d.length = width then writeOk s rd { n with bits := replaceField n.bits start s.ports.d }
  else .next (s.raise .lengthMismatch)

/-- SETMANT (40_codec.md R93). -/
def execSetmant (rd : Reg) (s : State) : Result :=
  withSource s [rd] rd fun n => setField s rd n (n.el + 1) n.ml

/-- SETEXP (40_codec.md R94). -/
def execSetexp (rd : Reg) (s : State) : Result :=
  withSource s [rd] rd fun n => setField s rd n 1 n.el

/-- SETSIGN (40_codec.md R95). -/
def execSetsign (rd : Reg) (f : Bool) (s : State) : Result :=
  withSource s [rd] rd fun n => writeOk s rd { n with bits := replaceField n.bits 0 [f] }

/-- ISZERO (40_codec.md R96). -/
def execIszero (rs1 : Reg) (s : State) : Result :=
  withSource s [rs1] rs1 fun n => answer s (.bool n.isZero)

/-- ISNAN (40_codec.md R97). -/
def execIsnan (rs1 : Reg) (s : State) : Result :=
  withSource s [rs1] rs1 fun n => answer s (.bool n.isNaN)

/-- ISINF (40_codec.md R98). -/
def execIsinf (rs1 : Reg) (s : State) : Result :=
  withSource s [rs1] rs1 fun n => answer s (.bool n.isInf)

/-- ISPOS (40_codec.md R99). -/
def execIspos (rs1 : Reg) (s : State) : Result :=
  withSource s [rs1] rs1 fun n => answer s (.bool n.isPos)

/-- SETZERO (40_codec.md R100): `F` is the sign written. -/
def execSetzero (rd : Reg) (f : Bool) (s : State) : Result :=
  withSource s [rd] rd fun n => writeOk s rd { n with bits := zeroBits f n.ml n.el }

/-- SETNAN (40_codec.md R101). -/
def execSetnan (rd : Reg) (f : Bool) (s : State) : Result :=
  withSource s [rd] rd fun n => writeOk s rd { n with bits := nanBits f n.ml n.el }

/-- SETINF (40_codec.md R102). -/
def execSetinf (rd : Reg) (f : Bool) (s : State) : Result :=
  withSource s [rd] rd fun n => writeOk s rd { n with bits := infBits f n.ml n.el }

end Sys2Proof.Machine
end

