-- ==== Sys2Proof/Machine/Comparator.lean ====
section
/-! DEFINITION. The Comparator: relations on `Val` (42_comparator.md R161, R162), the tolerance check (R169, R170) and
the seven commands, which write no register (R160). -/

namespace Sys2Proof.Machine

/-- A relation on extended reals, false when either value is a NaN. -/
def ordered (rel : ExtReal → ExtReal → Bool) (x y : Val) : Bool :=
  match num x, num y with
  | some p, some q => rel p q
  | _, _ => false

/-- `veq` of 42_comparator.md R161. -/
def veq (x y : Val) : Bool := ordered (fun p q => decide (p = q)) x y

/-- `vne` of R164: the exact negation of `veq`, NaN included. -/
def vne (x y : Val) : Bool := !veq x y

/-- `vlt` of R162. -/
def vlt (x y : Val) : Bool := ordered ExtReal.lt x y

/-- `vle` of R162, defined on the values and not as the negation of `vgt`. -/
def vle (x y : Val) : Bool := ordered ExtReal.le x y

/-- `vgt` of R167. -/
def vgt (x y : Val) : Bool := vlt y x

/-- `vge` of R168. -/
def vge (x y : Val) : Bool := vle y x

/-- `ulp(v, m, e)` of R169 for a finite value, given as its number: zero and subnormals sit on the grid of step
`2^(emin - m)`. -/
def ulp (q : Rat) (m e : Nat) : Rat :=
  if q = 0 then pow2 (emin e - (m : Int))
  else pow2 (max (floorlog2 (absRat q)) (emin e) - (m : Int))

/-- The check of R170 on two values of shape `(m, e)` with the tolerance `a`. -/
def withinTolerance (a m e : Nat) (x y : Val) : Bool :=
  match finiteNum x, finiteNum y with
  | some p, some q => decide (absRat (p - q) ≤ (a : Rat) * max (ulp p m e) (ulp q m e))
  | _, _ => veq x y

/-- The common body of R160 (its `compare`): shapes, both operands decoded, the relation's Boolean as payload. -/
def relop (rel : Nat → Nat → Val → Val → Bool) (rs1 rs2 : Reg) (s : State) : Result :=
  withSources s [rs1, rs2] rs1 rs2 fun x y =>
    if sameShape x y then answer s (.bool (rel x.ml x.el x.val y.val))
    else .next (s.raise .precisionMismatch)

/-- EQ (42_comparator.md R163). -/
def execEq (rs1 rs2 : Reg) (s : State) : Result := relop (fun _ _ => veq) rs1 rs2 s

/-- NE (42_comparator.md R164). -/
def execNe (rs1 rs2 : Reg) (s : State) : Result := relop (fun _ _ => vne) rs1 rs2 s

/-- LT (42_comparator.md R165). -/
def execLt (rs1 rs2 : Reg) (s : State) : Result := relop (fun _ _ => vlt) rs1 rs2 s

/-- LE (42_comparator.md R166). -/
def execLe (rs1 rs2 : Reg) (s : State) : Result := relop (fun _ _ => vle) rs1 rs2 s

/-- GT (42_comparator.md R167). -/
def execGt (rs1 rs2 : Reg) (s : State) : Result := relop (fun _ _ => vgt) rs1 rs2 s

/-- GE (42_comparator.md R168). -/
def execGe (rs1 rs2 : Reg) (s : State) : Result := relop (fun _ _ => vge) rs1 rs2 s

/-- CHKPREC (42_comparator.md R170): the tolerance is port A. -/
def execChkprec (rs1 rs2 : Reg) (s : State) : Result := relop (withinTolerance s.ports.a) rs1 rs2 s

end Sys2Proof.Machine
end

