-- ==== Sys2Proof/Machine/Dispatch.lean ====
section
/-! DEFINITION. One arm per command. -/

namespace Sys2Proof.Machine

def exec (i : Instr) (s : State) : Host.Outcome State Fault Refusal :=
  match i with
  -- the Bit-Field Codec (40_codec.md)
  | .new rd => Sys2Proof.Machine.execNew rd s
  | .newv rd => Sys2Proof.Machine.execNewv rd s
  | .getval rs1 => Sys2Proof.Machine.execGetval rs1 s
  | .getml rs1 => Sys2Proof.Machine.execGetml rs1 s
  | .getel rs1 => Sys2Proof.Machine.execGetel rs1 s
  | .getlen rs1 => Sys2Proof.Machine.execGetlen rs1 s
  | .getbits rs1 => Sys2Proof.Machine.execGetbits rs1 s
  | .setmant rd => Sys2Proof.Machine.execSetmant rd s
  | .setexp rd => Sys2Proof.Machine.execSetexp rd s
  | .setsign rd f => Sys2Proof.Machine.execSetsign rd f s
  | .iszero rs1 => Sys2Proof.Machine.execIszero rs1 s
  | .isnan rs1 => Sys2Proof.Machine.execIsnan rs1 s
  | .isinf rs1 => Sys2Proof.Machine.execIsinf rs1 s
  | .ispos rs1 => Sys2Proof.Machine.execIspos rs1 s
  | .setzero rd f => Sys2Proof.Machine.execSetzero rd f s
  | .setnan rd f => Sys2Proof.Machine.execSetnan rd f s
  | .setinf rd f => Sys2Proof.Machine.execSetinf rd f s
  -- the Arithmetic Unit (41_arithmetic.md)
  | .add rd rs1 rs2 => Sys2Proof.Machine.execAdd rd rs1 rs2 s
  | .sub rd rs1 rs2 => Sys2Proof.Machine.execSub rd rs1 rs2 s
  | .mul rd rs1 rs2 => Sys2Proof.Machine.execMul rd rs1 rs2 s
  | .div rd rs1 rs2 => Sys2Proof.Machine.execDiv rd rs1 rs2 s
  -- the Comparator (42_comparator.md)
  | .eq rs1 rs2 => Sys2Proof.Machine.execEq rs1 rs2 s
  | .ne rs1 rs2 => Sys2Proof.Machine.execNe rs1 rs2 s
  | .lt rs1 rs2 => Sys2Proof.Machine.execLt rs1 rs2 s
  | .le rs1 rs2 => Sys2Proof.Machine.execLe rs1 rs2 s
  | .gt rs1 rs2 => Sys2Proof.Machine.execGt rs1 rs2 s
  | .ge rs1 rs2 => Sys2Proof.Machine.execGe rs1 rs2 s
  | .chkprec rs1 rs2 => Sys2Proof.Machine.execChkprec rs1 rs2 s
  -- the Precision Caster (43_caster.md)
  | .cast rd => Sys2Proof.Machine.execCast rd s
  | .copy rd rs1 => Sys2Proof.Machine.execCopy rd rs1 s

end Sys2Proof.Machine
end

