-- ==== Sys2Proof/Machine/Port.lean ====
section
/-! DEFINITION. The command port (30_encoding.md R56): taking the next host event, and placing one. The engine fetches
nothing (20_memory.md R48); a word is consumed when presented. -/

namespace Sys2Proof.Machine

/-- Execute one presented command: the operand ports carry what came with it; a legal word runs its command, every other
word is answered with IllegalCommand (30_encoding.md R64, R65). -/
def runCommand (c : Command) (s : State) : Result :=
  match decode c.cw with
  | .ok i => exec i { s with ports := c.ports }
  | .error _ => .next (State.raise { s with ports := c.ports } .illegalCommand)

/-- Take one host event: a command, or the reset input between two commands (70_reset_and_hazards.md R240). -/
def takeEvent (ev : HostEvent) (s : State) : Result :=
  match ev with
  | .command c => runCommand c s
  | .reset => .next s.resetEngine

/-- The state in which the host presents the word `cw` next, with the operand ports as they stand. -/
def State.present (s : State) (cw : CmdWord) : State :=
  { s with inbox := .command { cw := cw, ports := s.ports } :: s.inbox }

end Sys2Proof.Machine
end

