-- ==== Sys2Proof/Machine/Step.lean ====
section
/-! DEFINITION. One step of the machine: the oldest host event (20_memory.md R45), or nothing when there is none. -/

namespace Sys2Proof.Machine

/-- One step. Events are taken one at a time, in the order the host presents them (20_memory.md R45); with none
presented nothing changes and there is no response (log 9). -/
def step (s : State) : Host.Outcome State Fault Refusal :=
  match s.inbox with
  | [] => .next s.idle
  | ev :: rest => takeEvent ev { s with inbox := rest }

/-- The command word is presented next, with the operand ports as they stand; no other field changes. -/
def State.withFetchWord (s : State) (nbits w : Nat) : State := s.present (tableWord nbits w)

end Sys2Proof.Machine
end

