-- ==== Sys2Proof/Safety.lean ====
section
/-! DEFINITION. What a safe state is, and the words the statements are written in: states after a write, an answer or an
error, spelled out field by field rather than through the machine's own operations. -/

namespace Sys2Proof.Machine

/-- The invariant of a valid register (10_state.md R21): both widths at least 1, as many bits as the widths say, and no
more than CAP. -/
def Instance.wf (p : Params) (n : Instance) : Bool :=
  widthsOk p n.ml n.el && n.bits.length == n.ml + n.el + 1

/-- The invariant of the machine: legal parameters (00_scope.md R6), as many registers as NREG says (10_state.md R20),
and R21 for every valid one. -/
def State.wf (s : State) : Bool :=
  s.params.legal && s.regs.length == s.params.nreg && s.regs.all fun n => n.all (Instance.wf s.params)

/-- A register of the machine holds an instance: `valid = 1` (10_state.md R26). -/
def State.valid (s : State) (r : Reg) : Bool := (s.inst r).isSome

/-- `r` is one of the engine's registers and holds the instance `n`. -/
def State.holds (s : State) (r : Reg) (n : Instance) : Prop :=
  r.val < s.params.nreg ∧ s.inst r = some n

/-- What `checkwidths` accepts, in words (40_codec.md R84). -/
def LegalWidths (p : Params) (a b : Nat) : Prop :=
  1 ≤ a ∧ 1 ≤ b ∧ ∀ c, p.cap = some c → a + b + 1 ≤ c

/-- The state after a command that wrote register `rd` and returned OK without a payload; nothing else differs. -/
def State.written (s : State) (rd : Reg) (n : Instance) : State :=
  { s with regs := s.regs.set rd.val (some n), response := some (.ok .none) }

/-- The state after a command that wrote nothing and returned OK with a payload. -/
def State.answered (s : State) (p : Payload) : State := { s with response := some (.ok p) }

/-- The state after a command that ended with an error: nothing but the response differs (60_exceptions.md R216). -/
def State.raised (s : State) (e : Error) : State := { s with response := some (.error e) }

/-- The state with other values on its operand ports. -/
def State.onPorts (s : State) (a b : Nat) (d : Bits) (v : Nat) : State := { s with ports := ⟨a, b, d, v⟩ }

/-- `E` is `floorlog2(a)` (00_scope.md R14). -/
def IsFloorLog2 (a : Rat) (E : Int) : Prop := (2 : Rat) ^ E ≤ a ∧ a < (2 : Rat) ^ (E + 1)

/-- `n` is `x` rounded to nearest, ties to even (00_scope.md R14). -/
def IsRoundedToEven (x : Rat) (n : Nat) : Prop :=
  |x - (n : Rat)| ≤ 1 / 2 ∧ (|x - (n : Rat)| = 1 / 2 → n % 2 = 0)

/-- `u` is the step size of the number `q` at the shape `(m, e)` (42_comparator.md R169). -/
def IsUlp (q : Rat) (m e : Nat) (u : Rat) : Prop :=
  (q = 0 ∧ u = (2 : Rat) ^ (emin e - (m : Int))) ∨
    (q ≠ 0 ∧ ∃ E, IsFloorLog2 |q| E ∧ u = (2 : Rat) ^ (max E (emin e) - (m : Int)))

/-- Two settings of the operand ports that carry the same on every port a command uses (30_encoding.md R57). -/
def portsAgree (i : Instr) (par : Params) (p q : Ports) : Prop :=
  match i with
  | .new _ | .cast _ => p.a = q.a ∧ p.b = q.b
  | .newv _ => p.a = q.a ∧ p.b = q.b ∧ hostBits par p.v = hostBits par q.v
  | .chkprec _ _ => p.a = q.a
  | .setmant _ | .setexp _ => p.d = q.d
  | _ => True

/-- The payload kinds of 30_encoding.md R58, the sequences with their lengths. -/
def payloadKind (i : Instr) (s : State) (p : Payload) : Prop :=
  match i with
  | .getml _ | .getel _ | .getlen _ => ∃ x, p = .nat x
  | .getbits r => ∃ x n, p = .seq x ∧ s.inst r = some n ∧ x.length = n.ml + n.el + 1
  | .getval _ => ∃ x, p = .real x ∧ x.length = s.params.hostM + s.params.hostE + 1
  | .iszero _ | .isnan _ | .isinf _ | .ispos _
  | .eq _ _ | .ne _ _ | .lt _ _ | .le _ _ | .gt _ _ | .ge _ _ | .chkprec _ _ => ∃ x, p = .bool x
  | .new _ | .newv _ | .setmant _ | .setexp _ | .setsign _ _ | .setzero _ _ | .setnan _ _ | .setinf _ _
  | .add _ _ _ | .sub _ _ _ | .mul _ _ _ | .div _ _ _ | .cast _ | .copy _ _ => p = .none

end Sys2Proof.Machine
end

