-- ==== Sys2Proof/Certificates/Slice0/Obligations.lean ====
section
/-! DEFINITION. The statements for the provers, from the spec's numbered rules. Each docstring names the rule. States
after a command are spelled by `State.written`, `State.answered` and `State.raised` (Safety.lean), which are record
updates: what they do not name is unchanged. The engine has no memory, so no statement speaks of memory. -/

open Sys2Proof Sys2Proof.Machine

/-! ## Reset, the invariant, and the step -/

/-- 10_state.md R33: after reset every `valid` is 0; the reset input does the same to any state between commands. -/
def Obligations.ResetLeavesNoInstance : Prop :=
  (∀ r, State.reset.inst r = none) ∧ State.reset.regs.length = State.reset.params.nreg ∧
  ∀ (s : State) (rest : List HostEvent), s.inbox = .reset :: rest →
    ∃ t, step s = .next t ∧ (∀ r, t.inst r = none) ∧ t.regs.length = s.params.nreg ∧ t.params = s.params

/-- The invariant holds right after reset, for the default parameters and for all legal ones. The values of the ports in
State.reset are the model's choice (log 4); the invariant does not speak of them. -/
def Obligations.ResetMeetsInvariant : Prop :=
  State.reset.wf = true ∧
  ∀ p : Params, p.legal = true → ({ State.reset with params := p, regs := noInstances p } : State).wf = true

/-- 10_state.md R21: every step, from every state that meets the invariant, keeps it; spelled out for the registers. -/
def Obligations.StepKeepsRegisterInvariants : Prop :=
  ∀ s t : State, s.wf = true → step s = .next t →
    t.wf = true ∧
    ∀ r n, t.inst r = some n →
      1 ≤ n.ml ∧ 1 ≤ n.el ∧ n.bits.length = n.ml + n.el + 1 ∧ ∀ c, t.params.cap = some c → n.ml + n.el + 1 ≤ c

/-- 60_exceptions.md R218 and 70_reset_and_hazards.md R243: nothing stops the engine. Every step goes on; a command is
consumed, is always answered, and leaves later events and the parameters alone. Those rules speak of commands, and R240
of reset; that a step with nothing presented also goes on, with the parameters unchanged, is the model's choice (log 9). -/
def Obligations.EveryStepGoesOn : Prop :=
  ∀ s : State, ∃ t, step s = .next t ∧ t.params = s.params ∧
    ∀ c rest, s.inbox = .command c :: rest →
      t.inbox = rest ∧ t.ports = c.ports ∧ ∃ r, t.response = some r

/-- A step runs the command its word spells, with the operand ports that came with it; a word that spells none is
answered with IllegalCommand; with nothing presented only the response goes away (that last clause is the model's
choice, log 9). -/
def Obligations.StepRunsDecodedCommand : Prop :=
  ∀ (s : State) (c : Command) (rest : List HostEvent),
    (∀ i, s.inbox = .command c :: rest → decode c.cw = .ok i →
      step s = exec i { s with inbox := rest, ports := c.ports }) ∧
    (∀ e, s.inbox = .command c :: rest → decode c.cw = .error e →
      step s = .next { s with inbox := rest, ports := c.ports, response := some (.error .illegalCommand) }) ∧
    (s.inbox = [] → step s = .next { s with response := none })

/-- 30_encoding.md R65, 60_exceptions.md R215: a command is answered with IllegalCommand exactly when its word is not the
spelling of a command whose register numbers the engine has, and then no register changes. -/
def Obligations.IllegalWordsExactly : Prop :=
  ∀ (s : State) (c : Command) (rest : List HostEvent), s.inbox = .command c :: rest →
    ∃ t, step s = .next t ∧
      (t.response = some (.error .illegalCommand) ↔
        ¬ ∃ i : Instr, encode i = c.cw ∧ i.wellFormed s.params = true) ∧
      (t.response = some (.error .illegalCommand) → t.regs = s.regs)

/-! ## The encoding -/

/-- Decoding the word of any command gives the command back, at every value of every field. -/
def Obligations.DecodeOfEncode : Prop := ∀ i : Instr, decode (encode i) = .ok i

/-- A word that decodes is the one word that spells its command: no word is a second spelling (30_encoding.md R63, R65). -/
def Obligations.EncodeOfDecode : Prop := ∀ (cw : CmdWord) (i : Instr), decode cw = .ok i → encode i = cw

/-- 30_encoding.md R60: a word spells a command iff `cw & mask = match` for the row of a command, and the rows are
disjoint. -/
def Obligations.DecodeByMaskAndMatch : Prop :=
  (∀ cw : CmdWord,
    (∃ i, decode cw = .ok i) ↔ ∃ row ∈ opcodeMap, cw &&& row.format.mask = row.matchWord) ∧
  (∀ (cw : CmdWord), ∀ r1 ∈ opcodeMap, ∀ r2 ∈ opcodeMap,
    cw &&& r1.format.mask = r1.matchWord → cw &&& r2.format.mask = r2.matchWord → r1.opcode = r2.opcode)

/-- 30_encoding.md R67: the worked encodings, one per format. -/
def Obligations.WorkedEncodings : Prop :=
  decode 0x10000000 = .ok (.new 0) ∧ decode 0x19300001 = .ok (.setsign 3 true) ∧
  decode 0x16050000 = .ok (.getbits 5) ∧ decode 0x51300000 = .ok (.copy 3 0) ∧
  decode 0x33201000 = .ok (.div 2 0 1) ∧ decode 0x46030000 = .ok (.chkprec 3 0)

/-! ## The number format -/

/-- 40_codec.md R80: decode, case by case, with the powers of two of the rationals. -/
def Obligations.DecodeFollowsTheFormula : Prop :=
  ∀ (b : Bits) (m e : Nat), 1 ≤ m → 1 ≤ e → b.length = m + e + 1 →
    let s := b.headD false
    let ef := pack ((b.drop 1).take e)
    let mf := pack (b.drop (e + 1))
    let sgn : Rat := (-1) ^ s.toNat
    let bs : Int := 2 ^ (e - 1) - 1
    (ef = 0 ∧ mf = 0 → decodeNum b m e = .zero s) ∧
    (ef = 0 ∧ mf ≠ 0 → decodeNum b m e = .fin (sgn * ((mf : Rat) / 2 ^ m) * (2 : Rat) ^ (1 - bs))) ∧
    (ef = 2 ^ e - 1 ∧ mf = 0 → decodeNum b m e = .inf s) ∧
    (ef = 2 ^ e - 1 ∧ mf ≠ 0 → decodeNum b m e = .nan) ∧
    (ef ≠ 0 ∧ ef ≠ 2 ^ e - 1 →
      decodeNum b m e = .fin (sgn * (1 + (mf : Rat) / 2 ^ m) * (2 : Rat) ^ ((ef : Int) - bs)))

/-- 40_codec.md R81 with R83: encode, for every value; `E` and `n` are whatever 00_scope.md R14 says they are. -/
def Obligations.EncodeFollowsTheRule : Prop :=
  ∀ m e : Nat, 1 ≤ m → 1 ≤ e →
    encodeNum .nan m e = [false] ++ List.replicate e true ++ [true] ++ List.replicate (m - 1) false ∧
    (∀ s, encodeNum (.inf s) m e = [s] ++ List.replicate e true ++ List.replicate m false) ∧
    (∀ s, encodeNum (.zero s) m e = [s] ++ List.replicate e false ++ List.replicate m false) ∧
    ∀ (q : Rat) (E : Int) (n : Nat), q ≠ 0 → IsFloorLog2 |q| E →
      IsRoundedToEven (|q| / (2 : Rat) ^ (max E (emin e) - (m : Int))) n →
      let s := decide (q < 0)
      let k := (max E (emin e) - emin e).toNat * 2 ^ m + n
      encodeNum (.fin q) m e =
        if (2 ^ e - 1) * 2 ^ m ≤ k then [s] ++ List.replicate e true ++ List.replicate m false
        else [s] ++ unpack (k / 2 ^ m) e ++ unpack (k % 2 ^ m) m

/-- 40_codec.md R103, first two clauses: what a shape represents survives encode and decode, and a pattern survives
decode and encode, but for a NaN, which becomes the canonical one. -/
def Obligations.CodecRoundTrip : Prop :=
  ∀ (b : Bits) (m e : Nat), 1 ≤ m → 1 ≤ e → b.length = m + e + 1 →
    decodeNum (encodeNum (decodeNum b m e) m e) m e = decodeNum b m e ∧
    (decodeNum b m e ≠ .nan → encodeNum (decodeNum b m e) m e = b) ∧
    (decodeNum b m e = .nan → encodeNum (decodeNum b m e) m e = canonicalNaN m e)

/-- 40_codec.md R103, third clause: encode is monotone. -/
def Obligations.EncodeIsMonotone : Prop :=
  ∀ (m e : Nat) (q1 q2 : Rat), 1 ≤ m → 1 ≤ e → q1 ≠ 0 → q2 ≠ 0 → q1 ≤ q2 →
    vle (decodeNum (encodeNum (.fin q1) m e) m e) (decodeNum (encodeNum (.fin q2) m e) m e) = true

/-- 41_arithmetic.md R140 with 40_codec.md R82: a finite result is a nearest representable value. -/
def Obligations.EncodeIsNearest : Prop :=
  ∀ (m e : Nat) (q x y : Rat) (b : Bits), 1 ≤ m → 1 ≤ e → q ≠ 0 →
    finiteNum (decodeNum (encodeNum (.fin q) m e) m e) = some x →
    b.length = m + e + 1 → finiteNum (decodeNum b m e) = some y →
    |x - q| ≤ |y - q|

/-- 41_arithmetic.md R140: the magnitude from which a result saturates to infinity, the midpoint above the largest
finite value; a shape with one exponent bit has its own. -/
def Obligations.OverflowThreshold : Prop :=
  ∀ (m e : Nat) (q : Rat), 1 ≤ m → 1 ≤ e → q ≠ 0 →
    (decodeNum (encodeNum (.fin q) m e) m e = .inf (decide (q < 0)) ↔
      (if e = 1 then ((2 : Rat) ^ m - 1 / 2) * (2 : Rat) ^ (1 - (m : Int))
        else (2 - (2 : Rat) ^ (-(m : Int) - 1)) * (2 : Rat) ^ emax e) ≤ |q|)

/-! ## The codec commands -/

/-- 40_codec.md R86, R84: NEW. Legal widths give an instance with every bit 0, whatever `N[rd]` held; others give
ConfigurationError and change nothing. -/
def Obligations.NewConstructsPositiveZero : Prop :=
  ∀ (s : State) (rd : Reg), rd.val < s.params.nreg →
    encode (.new rd) = BitVec.ofNat 32 (0x10000000 + rd.val * 0x100000) ∧
    (LegalWidths s.params s.ports.a s.ports.b →
      exec (.new rd) s = .next (s.written rd
        { ml := s.ports.a, el := s.ports.b, bits := List.replicate (s.ports.a + s.ports.b + 1) false })) ∧
    (¬ LegalWidths s.params s.ports.a s.ports.b →
      exec (.new rd) s = .next (s.raised .configurationError))

/-- 40_codec.md R87, R84, R85: NEWV. -/
def Obligations.NewvEncodesTheHostValue : Prop :=
  ∀ (s : State) (rd : Reg), rd.val < s.params.nreg →
    encode (.newv rd) = BitVec.ofNat 32 (0x11000000 + rd.val * 0x100000) ∧
    (LegalWidths s.params s.ports.a s.ports.b →
      exec (.newv rd) s = .next (s.written rd
        { ml := s.ports.a, el := s.ports.b
          bits := encodeNum (decodeNum (unpack s.ports.v (s.params.hostM + s.params.hostE + 1))
            s.params.hostM s.params.hostE) s.ports.a s.ports.b })) ∧
    (¬ LegalWidths s.params s.ports.a s.ports.b →
      exec (.newv rd) s = .next (s.raised .configurationError))

/-- 40_codec.md R88: GETVAL, and its last corner case: a NaN is returned as the host's canonical NaN. -/
def Obligations.GetvalReturnsTheDecodedValue : Prop :=
  ∀ (s : State) (r : Reg) (n : Instance), s.holds r n →
    encode (.getval r) = BitVec.ofNat 32 (0x12000000 + r.val * 0x10000) ∧
    exec (.getval r) s = .next (s.answered (.real
      (encodeNum (decodeNum n.bits n.ml n.el) s.params.hostM s.params.hostE))) ∧
    (decodeNum n.bits n.ml n.el = .nan →
      exec (.getval r) s = .next (s.answered (.real (canonicalNaN s.params.hostM s.params.hostE))))

/-- 40_codec.md R89, R90, R91: GETML, GETEL, GETLEN; GETLEN is the length of the bit array. -/
def Obligations.LengthReads : Prop :=
  ∀ (s : State) (r : Reg) (n : Instance), s.wf = true → s.holds r n →
    encode (.getml r) = BitVec.ofNat 32 (0x13000000 + r.val * 0x10000) ∧
    encode (.getel r) = BitVec.ofNat 32 (0x14000000 + r.val * 0x10000) ∧
    encode (.getlen r) = BitVec.ofNat 32 (0x15000000 + r.val * 0x10000) ∧
    exec (.getml r) s = .next (s.answered (.nat n.ml)) ∧
    exec (.getel r) s = .next (s.answered (.nat n.el)) ∧
    exec (.getlen r) s = .next (s.answered (.nat (n.ml + n.el + 1))) ∧
    exec (.getlen r) s = .next (s.answered (.nat n.bits.length))

/-- 40_codec.md R92: GETBITS. -/
def Obligations.GetbitsReturnsTheArray : Prop :=
  ∀ (s : State) (r : Reg) (n : Instance), s.holds r n →
    encode (.getbits r) = BitVec.ofNat 32 (0x16000000 + r.val * 0x10000) ∧
    exec (.getbits r) s = .next (s.answered (.seq n.bits))

/-- 40_codec.md R93: SETMANT replaces the mantissa field and nothing else, or returns LengthMismatch. -/
def Obligations.SetmantReplacesTheMantissa : Prop :=
  ∀ (s : State) (r : Reg) (n : Instance), s.wf = true → s.holds r n →
    encode (.setmant r) = BitVec.ofNat 32 (0x17000000 + r.val * 0x100000) ∧
    (s.ports.d.length = n.ml →
      exec (.setmant r) s = .next (s.written r { n with bits := n.bits.take (n.el + 1) ++ s.ports.d })) ∧
    (s.ports.d.length ≠ n.ml → exec (.setmant r) s = .next (s.raised .lengthMismatch))

/-- 40_codec.md R94: SETEXP replaces the exponent field and nothing else, or returns LengthMismatch. -/
def Obligations.SetexpReplacesTheExponent : Prop :=
  ∀ (s : State) (r : Reg) (n : Instance), s.holds r n →
    encode (.setexp r) = BitVec.ofNat 32 (0x18000000 + r.val * 0x100000) ∧
    (s.ports.d.length = n.el →
      exec (.setexp r) s =
        .next (s.written r { n with bits := n.bits.take 1 ++ s.ports.d ++ n.bits.drop (n.el + 1) })) ∧
    (s.ports.d.length ≠ n.el → exec (.setexp r) s = .next (s.raised .lengthMismatch))

/-- 40_codec.md R95: SETSIGN replaces the sign bit, whatever the instance holds. -/
def Obligations.SetsignReplacesTheSign : Prop :=
  ∀ (s : State) (r : Reg) (f : Bool) (n : Instance), s.holds r n →
    encode (.setsign r f) = BitVec.ofNat 32 (0x19000000 + r.val * 0x100000 + f.toNat) ∧
    exec (.setsign r f) s = .next (s.written r { n with bits := f :: n.bits.tail })

/-- 40_codec.md R96 to R99: the four predicates, read off the bits: ISZERO all bits after the sign 0, ISINF exponent all
ones and mantissa all zero, ISNAN exponent all ones and a one in the mantissa, ISPOS the sign bit alone. -/
def Obligations.PredicatesReadTheBits : Prop :=
  ∀ (s : State) (r : Reg) (n : Instance), s.wf = true → s.holds r n →
    let ex := (n.bits.drop 1).take n.el
    let ma := n.bits.drop (n.el + 1)
    encode (.iszero r) = BitVec.ofNat 32 (0x20000000 + r.val * 0x10000) ∧
    encode (.isnan r) = BitVec.ofNat 32 (0x21000000 + r.val * 0x10000) ∧
    encode (.isinf r) = BitVec.ofNat 32 (0x22000000 + r.val * 0x10000) ∧
    encode (.ispos r) = BitVec.ofNat 32 (0x23000000 + r.val * 0x10000) ∧
    exec (.iszero r) s = .next (s.answered (.bool (ex.all (· == false) && ma.all (· == false)))) ∧
    exec (.isnan r) s = .next (s.answered (.bool (ex.all (· == true) && ma.any (· == true)))) ∧
    exec (.isinf r) s = .next (s.answered (.bool (ex.all (· == true) && ma.all (· == false)))) ∧
    exec (.ispos r) s = .next (s.answered (.bool (n.bits.headD false == false)))

/-- 40_codec.md R100 to R102: SETZERO, SETNAN, SETINF write the special pattern with the flag as its sign. -/
def Obligations.SpecialSettersForceTheBits : Prop :=
  ∀ (s : State) (r : Reg) (f : Bool) (n : Instance), s.holds r n →
    encode (.setzero r f) = BitVec.ofNat 32 (0x24000000 + r.val * 0x100000 + f.toNat) ∧
    encode (.setnan r f) = BitVec.ofNat 32 (0x25000000 + r.val * 0x100000 + f.toNat) ∧
    encode (.setinf r f) = BitVec.ofNat 32 (0x26000000 + r.val * 0x100000 + f.toNat) ∧
    exec (.setzero r f) s = .next (s.written r
      { n with bits := f :: (List.replicate n.el false ++ List.replicate n.ml false) }) ∧
    exec (.setnan r f) s = .next (s.written r
      { n with bits := f :: (List.replicate n.el true ++ true :: List.replicate (n.ml - 1) false) }) ∧
    exec (.setinf r f) s = .next (s.written r
      { n with bits := f :: (List.replicate n.el true ++ List.replicate n.ml false) })

/-- 40_codec.md R104: after a setter the predicates say what the setter forced, at once. -/
def Obligations.ForcedValuesAreSeenAtOnce : Prop :=
  ∀ (s : State) (r : Reg) (f : Bool) (n : Instance), s.wf = true → s.holds r n →
    (∃ t, exec (.setzero r f) s = .next t ∧
      exec (.iszero r) t = .next (t.answered (.bool true)) ∧ exec (.isnan r) t = .next (t.answered (.bool false)) ∧
      exec (.isinf r) t = .next (t.answered (.bool false)) ∧ exec (.ispos r) t = .next (t.answered (.bool (!f)))) ∧
    (∃ t, exec (.setnan r f) s = .next t ∧
      exec (.iszero r) t = .next (t.answered (.bool false)) ∧ exec (.isnan r) t = .next (t.answered (.bool true)) ∧
      exec (.isinf r) t = .next (t.answered (.bool false)) ∧ exec (.ispos r) t = .next (t.answered (.bool (!f)))) ∧
    (∃ t, exec (.setinf r f) s = .next t ∧
      exec (.iszero r) t = .next (t.answered (.bool false)) ∧ exec (.isnan r) t = .next (t.answered (.bool false)) ∧
      exec (.isinf r) t = .next (t.answered (.bool true)) ∧ exec (.ispos r) t = .next (t.answered (.bool (!f)))) ∧
    (∃ t, exec (.setsign r f) s = .next t ∧ exec (.ispos r) t = .next (t.answered (.bool (!f))))

/-- 40_codec.md R105, on any register: the five presented commands leave exactly the source's bit array, whatever the
register held. -/
def Obligations.DirectBitSetting : Prop :=
  ∀ (s : State) (r : Reg) (v : Nat), s.wf = true → r.val < s.params.nreg → LegalWidths s.params 4 2 →
    s.inbox = [.command ⟨encode (.new r), ⟨4, 2, [], v⟩⟩,
      .command ⟨encode (.setexp r), ⟨0, 0, [true, false], v⟩⟩,
      .command ⟨encode (.setmant r), ⟨0, 0, [true, true, false, true], v⟩⟩,
      .command ⟨encode (.setsign r false), ⟨0, 0, [], v⟩⟩,
      .command ⟨encode (.getbits r), ⟨0, 0, [], v⟩⟩] →
    ∃ t, Host.Core.run Sys2Proof.core 5 s = .next t ∧
      State.response t = some (.ok (.seq [false, true, false, true, true, false, true]))

/-- 40_codec.md R87, R88: at the host's own shape a value crosses the port unchanged: NEWV's bits are the port's, and
GETVAL's payload is the register's, but for a NaN. -/
def Obligations.HostShapeCrossesUnchanged : Prop :=
  ∀ (s : State) (r : Reg), s.wf = true → r.val < s.params.nreg →
    (s.ports.a = s.params.hostM → s.ports.b = s.params.hostE → LegalWidths s.params s.ports.a s.ports.b →
      fromHost s.params s.ports.v ≠ .nan →
      exec (.newv r) s = .next (s.written r
        { ml := s.params.hostM, el := s.params.hostE, bits := hostBits s.params s.ports.v })) ∧
    (∀ n, s.inst r = some n → n.ml = s.params.hostM → n.el = s.params.hostE → n.val ≠ .nan →
      exec (.getval r) s = .next (s.answered (.real n.bits)))

/-! ## The Arithmetic Unit -/

/-- 41_arithmetic.md R130, R134 to R137: ADD, SUB, MUL, DIV. Operands of one shape give the exact result rounded once,
in the shared shape, read before the destination is written (`rd` may be a source); other shapes give
PrecisionMismatch and change nothing. -/
def Obligations.ArithmeticRoundsTheExactResult : Prop :=
  ∀ (s : State) (rd r1 r2 : Reg) (x y : Instance), rd.val < s.params.nreg → s.holds r1 x → s.holds r2 y →
    let w := rd.val * 0x100000 + r1.val * 0x10000 + r2.val * 0x1000
    let vx := decodeNum x.bits x.ml x.el
    let vy := decodeNum y.bits y.ml y.el
    encode (.add rd r1 r2) = BitVec.ofNat 32 (0x30000000 + w) ∧
    encode (.sub rd r1 r2) = BitVec.ofNat 32 (0x31000000 + w) ∧
    encode (.mul rd r1 r2) = BitVec.ofNat 32 (0x32000000 + w) ∧
    encode (.div rd r1 r2) = BitVec.ofNat 32 (0x33000000 + w) ∧
    (x.ml = y.ml ∧ x.el = y.el →
      exec (.add rd r1 r2) s = .next (s.written rd ⟨x.ml, x.el, encodeNum (vadd vx vy) x.ml x.el⟩) ∧
      exec (.sub rd r1 r2) s = .next (s.written rd ⟨x.ml, x.el, encodeNum (vsub vx vy) x.ml x.el⟩) ∧
      exec (.mul rd r1 r2) s = .next (s.written rd ⟨x.ml, x.el, encodeNum (vmul vx vy) x.ml x.el⟩) ∧
      exec (.div rd r1 r2) s = .next (s.written rd ⟨x.ml, x.el, encodeNum (vdiv vx vy) x.ml x.el⟩)) ∧
    (¬ (x.ml = y.ml ∧ x.el = y.el) →
      exec (.add rd r1 r2) s = .next (s.raised .precisionMismatch) ∧
      exec (.sub rd r1 r2) s = .next (s.raised .precisionMismatch) ∧
      exec (.mul rd r1 r2) s = .next (s.raised .precisionMismatch) ∧
      exec (.div rd r1 r2) s = .next (s.raised .precisionMismatch))

/-- 41_arithmetic.md R131: exact addition and subtraction, class by class. -/
def Obligations.ExactAdditionByClass : Prop :=
  (∀ v, vadd .nan v = .nan ∧ vadd v .nan = .nan) ∧
  (∀ s t, vadd (.inf s) (.inf t) = if s = t then .inf s else .nan) ∧
  (∀ s t, vadd (.inf s) (.zero t) = .inf s ∧ vadd (.zero t) (.inf s) = .inf s) ∧
  (∀ s q, vadd (.inf s) (.fin q) = .inf s ∧ vadd (.fin q) (.inf s) = .inf s) ∧
  (∀ s t, vadd (.zero s) (.zero t) = .zero (s && t)) ∧
  (∀ s q, vadd (.zero s) (.fin q) = .fin q ∧ vadd (.fin q) (.zero s) = .fin q) ∧
  (∀ p q : Rat, p + q = 0 → vadd (.fin p) (.fin q) = .zero false) ∧
  (∀ p q : Rat, p + q ≠ 0 → vadd (.fin p) (.fin q) = .fin (p + q)) ∧
  (∀ x, vsub x .nan = .nan) ∧
  (∀ x s, vsub x (.inf s) = vadd x (.inf (!s))) ∧
  (∀ x s, vsub x (.zero s) = vadd x (.zero (!s))) ∧
  (∀ x q, vsub x (.fin q) = vadd x (.fin (-q)))

/-- 41_arithmetic.md R132, R133: exact multiplication and division, class by class; the sign is the XOR of the signs. -/
def Obligations.ExactProductsByClass : Prop :=
  (∀ v, vmul .nan v = .nan ∧ vmul v .nan = .nan ∧ vdiv .nan v = .nan ∧ vdiv v .nan = .nan) ∧
  (∀ s t, vmul (.inf s) (.zero t) = .nan ∧ vmul (.zero t) (.inf s) = .nan) ∧
  (∀ s t, vmul (.inf s) (.inf t) = .inf (s ^^ t) ∧ vmul (.zero s) (.zero t) = .zero (s ^^ t)) ∧
  (∀ s q, vmul (.inf s) (.fin q) = .inf (s ^^ decide (q < 0)) ∧ vmul (.fin q) (.inf s) = .inf (s ^^ decide (q < 0))) ∧
  (∀ s q, vmul (.zero s) (.fin q) = .zero (s ^^ decide (q < 0)) ∧
    vmul (.fin q) (.zero s) = .zero (s ^^ decide (q < 0))) ∧
  (∀ p q, vmul (.fin p) (.fin q) = .fin (p * q)) ∧
  (∀ s t, vdiv (.inf s) (.inf t) = .nan ∧ vdiv (.zero s) (.zero t) = .nan) ∧
  (∀ s t, vdiv (.inf s) (.zero t) = .inf (s ^^ t) ∧ vdiv (.zero s) (.inf t) = .zero (s ^^ t)) ∧
  (∀ s q, vdiv (.inf s) (.fin q) = .inf (s ^^ decide (q < 0)) ∧ vdiv (.fin q) (.inf s) = .zero (s ^^ decide (q < 0))) ∧
  (∀ s q, vdiv (.fin q) (.zero s) = .inf (s ^^ decide (q < 0)) ∧ vdiv (.zero s) (.fin q) = .zero (s ^^ decide (q < 0))) ∧
  (∀ p q, vdiv (.fin p) (.fin q) = .fin (p / q))

/-- 41_arithmetic.md R139: whatever the operands held, a result that is a NaN is the canonical NaN of the shape. -/
def Obligations.ArithmeticNaNIsCanonical : Prop :=
  ∀ (s t : State) (rd r1 r2 : Reg) (i : Instr) (n : Instance), s.wf = true →
    i ∈ [Instr.add rd r1 r2, .sub rd r1 r2, .mul rd r1 r2, .div rd r1 r2] →
    exec i s = .next t → t.response = some (.ok .none) → t.inst rd = some n →
    n.isNaN = true →
    n.bits = false :: (List.replicate n.el true ++ true :: List.replicate (n.ml - 1) false)

/-- 41_arithmetic.md R140: ADD and MUL are commutative, bit for bit and error for error. -/
def Obligations.AddAndMulCommute : Prop :=
  ∀ (s : State) (rd r1 r2 : Reg),
    exec (.add rd r1 r2) s = exec (.add rd r2 r1) s ∧ exec (.mul rd r1 r2) s = exec (.mul rd r2 r1) s

/-- 41_arithmetic.md R140: SUB is ADD of the operand with its sign bit flipped (a SETSIGN of the right operand, then
ADD, leaves the same bits in `rd` as SUB). -/
def Obligations.SubIsAddOfTheNegation : Prop :=
  ∀ (s : State) (rd r1 r2 : Reg) (x y : Instance), s.wf = true → rd.val < s.params.nreg → r1 ≠ r2 →
    s.holds r1 x → s.holds r2 y →
    ∃ t u v, exec (.setsign r2 (!(y.bits.headD false))) s = .next t ∧
      exec (.add rd r1 r2) t = .next u ∧ exec (.sub rd r1 r2) s = .next v ∧
      u.response = v.response ∧ (u.response = some (.ok .none) → u.inst rd = v.inst rd)

/-- 41_arithmetic.md R135, R137, corner cases of `rs1 = rs2`: `x - x` is `+0` for a finite instance and NaN otherwise;
`x / x` is 1 for a finite nonzero instance and NaN otherwise. -/
def Obligations.SelfDifferenceAndQuotient : Prop :=
  ∀ (s : State) (rd r : Reg) (n : Instance), s.wf = true → rd.val < s.params.nreg → s.holds r n →
    (finiteNum n.val ≠ none →
      exec (.sub rd r r) s = .next (s.written rd { n with bits := List.replicate (n.ml + n.el + 1) false })) ∧
    (finiteNum n.val = none →
      exec (.sub rd r r) s = .next (s.written rd { n with bits := canonicalNaN n.ml n.el })) ∧
    (∀ q, n.val = .fin q →
      exec (.div rd r r) s = .next (s.written rd { n with bits := encodeNum (.fin 1) n.ml n.el })) ∧
    ((∀ q, n.val ≠ .fin q) →
      exec (.div rd r r) s = .next (s.written rd { n with bits := canonicalNaN n.ml n.el }))

/-! ## The Comparator -/

/-- 42_comparator.md R160, R163 to R168: the six relational commands answer with the relation of the exact values and
write nothing; different shapes give PrecisionMismatch. -/
def Obligations.RelationsCompareExactValues : Prop :=
  ∀ (s : State) (r1 r2 : Reg) (x y : Instance), s.holds r1 x → s.holds r2 y →
    let w := r1.val * 0x10000 + r2.val * 0x1000
    let vx := decodeNum x.bits x.ml x.el
    let vy := decodeNum y.bits y.ml y.el
    encode (.eq r1 r2) = BitVec.ofNat 32 (0x40000000 + w) ∧
    encode (.ne r1 r2) = BitVec.ofNat 32 (0x41000000 + w) ∧
    encode (.lt r1 r2) = BitVec.ofNat 32 (0x42000000 + w) ∧
    encode (.le r1 r2) = BitVec.ofNat 32 (0x43000000 + w) ∧
    encode (.gt r1 r2) = BitVec.ofNat 32 (0x44000000 + w) ∧
    encode (.ge r1 r2) = BitVec.ofNat 32 (0x45000000 + w) ∧
    (x.ml = y.ml ∧ x.el = y.el →
      exec (.eq r1 r2) s = .next (s.answered (.bool (veq vx vy))) ∧
      exec (.ne r1 r2) s = .next (s.answered (.bool (!(veq vx vy)))) ∧
      exec (.lt r1 r2) s = .next (s.answered (.bool (vlt vx vy))) ∧
      exec (.le r1 r2) s = .next (s.answered (.bool (vle vx vy))) ∧
      exec (.gt r1 r2) s = .next (s.answered (.bool (vlt vy vx))) ∧
      exec (.ge r1 r2) s = .next (s.answered (.bool (vle vy vx)))) ∧
    (¬ (x.ml = y.ml ∧ x.el = y.el) →
      ∀ i ∈ [Instr.eq r1 r2, .ne r1 r2, .lt r1 r2, .le r1 r2, .gt r1 r2, .ge r1 r2],
        exec i s = .next (s.raised .precisionMismatch))

/-- 42_comparator.md R161: equality by class, and on bit arrays of one shape: two non-NaN arrays are equal iff they are
the same array or both zeros. -/
def Obligations.EqualityByClassAndBits : Prop :=
  (∀ v, veq .nan v = false ∧ veq v .nan = false) ∧
  (∀ s t, veq (.zero s) (.zero t) = true) ∧
  (∀ s t, veq (.inf s) (.inf t) = decide (s = t)) ∧
  (∀ p q, veq (.fin p) (.fin q) = decide (p = q)) ∧
  (∀ s t, veq (.zero s) (.inf t) = false ∧ veq (.inf t) (.zero s) = false) ∧
  (∀ s (q : Rat), q ≠ 0 → veq (.zero s) (.fin q) = false ∧ veq (.fin q) (.zero s) = false) ∧
  (∀ s q, veq (.inf s) (.fin q) = false ∧ veq (.fin q) (.inf s) = false) ∧
  ∀ (a b : Bits) (m e : Nat), 1 ≤ m → 1 ≤ e → a.length = m + e + 1 → b.length = m + e + 1 →
    decodeNum a m e ≠ .nan → decodeNum b m e ≠ .nan →
    (veq (decodeNum a m e) (decodeNum b m e) = true ↔
      a = b ∨ (a.tail.all (· == false) = true ∧ b.tail.all (· == false) = true))

/-- 42_comparator.md R162: the order, by class. -/
def Obligations.OrderByClass : Prop :=
  (∀ v, vlt .nan v = false ∧ vlt v .nan = false ∧ vle .nan v = false ∧ vle v .nan = false) ∧
  (∀ p q : Rat, vlt (.fin p) (.fin q) = decide (p < q) ∧ vle (.fin p) (.fin q) = decide (p ≤ q)) ∧
  (∀ s t, vlt (.zero s) (.zero t) = false ∧ vle (.zero s) (.zero t) = true) ∧
  (∀ s (q : Rat), vlt (.zero s) (.fin q) = decide (0 < q) ∧ vlt (.fin q) (.zero s) = decide (q < 0) ∧
    vle (.zero s) (.fin q) = decide (0 ≤ q) ∧ vle (.fin q) (.zero s) = decide (q ≤ 0)) ∧
  (∀ v, v ≠ .nan → v ≠ .inf true → vlt (.inf true) v = true ∧ vlt v (.inf true) = false) ∧
  (∀ v, v ≠ .nan → v ≠ .inf false → vlt v (.inf false) = true ∧ vlt (.inf false) v = false) ∧
  (∀ v, v ≠ .nan → vle (.inf true) v = true ∧ vle v (.inf false) = true) ∧
  (∀ s, vlt (.inf s) (.inf s) = false) ∧
  (∀ v, v ≠ .nan → v ≠ .inf true → vle v (.inf true) = false) ∧
  (∀ v, v ≠ .nan → v ≠ .inf false → vle (.inf false) v = false) ∧
  ∀ v w, vle v w = (vlt v w || veq v w)

/-- 42_comparator.md R171: the ordering is total on non-NaN values, a NaN operand makes all but NE false, and the further
laws of the rule, those of CHKPREC included. -/
def Obligations.OrderingIsTotalButForNaN : Prop :=
  (∀ x y : Val, x ≠ .nan → y ≠ .nan →
    (vlt x y = true ∧ veq x y = false ∧ vgt x y = false) ∨
    (vlt x y = false ∧ veq x y = true ∧ vgt x y = false) ∨
    (vlt x y = false ∧ veq x y = false ∧ vgt x y = true)) ∧
  (∀ x y : Val, vle x y = (vlt x y || veq x y) ∧ vge x y = (vgt x y || veq x y)) ∧
  (∀ x y : Val, (x = .nan ∨ y = .nan) →
    vlt x y = false ∧ veq x y = false ∧ vgt x y = false ∧ vle x y = false ∧ vge x y = false ∧ vne x y = true) ∧
  (∀ x y : Val, veq x y = veq y x ∧ vne x y = vne y x ∧ vlt x y = vgt y x ∧ vle x y = vge y x ∧
    vne x y = !(veq x y)) ∧
  (∀ (a m e : Nat) (x y : Val), withinTolerance a m e x y = withinTolerance a m e y x) ∧
  (∀ (a b m e : Nat) (x y : Val), a ≤ b → withinTolerance a m e x y = true → withinTolerance b m e x y = true)

/-- 42_comparator.md R169, R170: CHKPREC, for each class of operands; the steps are whatever R169 says they are. -/
def Obligations.ChkprecComparesWithinUlps : Prop :=
  ∀ (s : State) (r1 r2 : Reg) (x y : Instance), s.holds r1 x → s.holds r2 y →
    let vx := decodeNum x.bits x.ml x.el
    let vy := decodeNum y.bits y.ml y.el
    encode (.chkprec r1 r2) = BitVec.ofNat 32 (0x46000000 + r1.val * 0x10000 + r2.val * 0x1000) ∧
    (¬ (x.ml = y.ml ∧ x.el = y.el) → exec (.chkprec r1 r2) s = .next (s.raised .precisionMismatch)) ∧
    (x.ml = y.ml ∧ x.el = y.el →
      (vx = .nan ∨ vy = .nan → exec (.chkprec r1 r2) s = .next (s.answered (.bool false))) ∧
      (∀ f g, vx = .inf f → vy = .inf g →
        exec (.chkprec r1 r2) s = .next (s.answered (.bool (decide (f = g))))) ∧
      (∀ f p, (vx = .inf f ∧ finiteNum vy = some p) ∨ (finiteNum vx = some p ∧ vy = .inf f) →
        exec (.chkprec r1 r2) s = .next (s.answered (.bool false))) ∧
      (∀ p q u w, finiteNum vx = some p → finiteNum vy = some q → IsUlp p x.ml x.el u → IsUlp q x.ml x.el w →
        exec (.chkprec r1 r2) s =
          .next (s.answered (.bool (decide (|p - q| ≤ (s.ports.a : Rat) * max u w))))))

/-! ## The Precision Caster -/

/-- 43_caster.md R190: CAST. Bad widths fail first; the current widths write nothing; other widths decode and encode. -/
def Obligations.CastReencodesInPlace : Prop :=
  ∀ (s : State) (r : Reg) (n : Instance), s.holds r n →
    encode (.cast r) = BitVec.ofNat 32 (0x50000000 + r.val * 0x100000) ∧
    (¬ LegalWidths s.params s.ports.a s.ports.b →
      exec (.cast r) s = .next (s.raised .configurationError)) ∧
    (LegalWidths s.params s.ports.a s.ports.b → s.ports.a = n.ml ∧ s.ports.b = n.el →
      exec (.cast r) s = .next (s.answered .none)) ∧
    (LegalWidths s.params s.ports.a s.ports.b → ¬ (s.ports.a = n.ml ∧ s.ports.b = n.el) →
      exec (.cast r) s = .next (s.written r
        ⟨s.ports.a, s.ports.b, encodeNum (decodeNum n.bits n.ml n.el) s.ports.a s.ports.b⟩))

/-- 43_caster.md R190: special values are preserved across every cast, signs of zeros and infinities included, and a
cast to a mantissa and an exponent at least as wide is exact. -/
def Obligations.CastKeepsSpecialsAndWidensExactly : Prop :=
  ∀ (s t : State) (r : Reg) (n k : Instance), s.wf = true → s.inst r = some n → exec (.cast r) s = .next t →
    t.response = some (.ok .none) → t.inst r = some k →
    k.ml = s.ports.a ∧ k.el = s.ports.b ∧
    (n.val = .nan → k.val = .nan) ∧ (∀ f, n.val = .inf f → k.val = .inf f) ∧
    (∀ f, n.val = .zero f → k.val = .zero f) ∧
    (n.ml ≤ s.ports.a → n.el ≤ s.ports.b → k.val = n.val)

/-- 43_caster.md R191: COPY, bit for bit; afterwards the two registers are independent: a command on one leaves the
other as it is. -/
def Obligations.CopyIsIndependent : Prop :=
  ∀ (s : State) (rd r : Reg) (n : Instance), rd.val < s.params.nreg → s.holds r n →
    encode (.copy rd r) = BitVec.ofNat 32 (0x51000000 + rd.val * 0x100000 + r.val * 0x10000) ∧
    exec (.copy rd r) s = .next (s.written rd { ml := n.ml, el := n.el, bits := n.bits }) ∧
    (rd ≠ r → ∀ (i : Instr) (u : State), exec i (s.written rd n) = .next u →
      (i.writes = some rd → u.inst r = some n) ∧
      (i.writes = some r → u.inst rd = (s.written rd n).inst rd))

/-- 43_caster.md R192: casting to the current widths leaves every bit, and casting twice to one target is casting once. -/
def Obligations.CastIsIdempotent : Prop :=
  (∀ (s : State) (r : Reg) (n : Instance), s.wf = true → s.holds r n →
    exec (.cast r) (s.onPorts n.ml n.el s.ports.d s.ports.v) =
      .next ((s.onPorts n.ml n.el s.ports.d s.ports.v).answered .none)) ∧
  (∀ (s t : State) (r : Reg), s.wf = true → exec (.cast r) s = .next t → t.response = some (.ok .none) →
    exec (.cast r) t = .next t)

/-- 43_caster.md R193: a normal value cast to a narrower shape that neither underflows nor overflows it and back again is
within `2^(m - m' - 1)` units in the last place of the original: CHKPREC against the original (in `r0`) is true for
every tolerance from there on. -/
def Obligations.CastDownAndUpRecovers : Prop :=
  ∀ (s : State) (r r0 : Reg) (n : Instance) (q : Rat) (E : Int) (m' e' a : Nat),
    s.wf = true → r ≠ r0 → s.holds r n → s.holds r0 n →
    n.val = .fin q → IsFloorLog2 |q| E → emin n.el ≤ E →
    1 ≤ m' → m' < n.ml → 1 ≤ e' → e' ≤ n.el → emin e' ≤ E →
    (∀ f, decodeNum (encodeNum (.fin q) m' e') m' e' ≠ .inf f) →
    2 ^ (n.ml - m' - 1) ≤ a →
    ∃ t u, exec (.cast r) (s.onPorts m' e' [] 0) = .next t ∧
      exec (.cast r) (t.onPorts n.ml n.el [] 0) = .next u ∧
      exec (.chkprec r r0) (u.onPorts a 0 [] 0) = .next ((u.onPorts a 0 [] 0).answered (.bool true))

/-! ## Errors -/

/-- 60_exceptions.md R210: the status codes. -/
def Obligations.StatusCodes : Prop :=
  (∀ p, (Response.ok p).status = 0x0) ∧
  (Response.error .configurationError).status = 0x1 ∧ (Response.error .lengthMismatch).status = 0x2 ∧
  (Response.error .precisionMismatch).status = 0x3 ∧ (Response.error .noInstance).status = 0x4 ∧
  (Response.error .illegalCommand).status = 0x5 ∧ ∀ r : Response, r.status.toNat < 6

/-- 60_exceptions.md R211: ConfigurationError, from NEW, NEWV and CAST only, exactly when the width check fails. -/
def Obligations.ConfigurationErrorExactly : Prop :=
  ∀ (i : Instr) (s t : State), exec i s = .next t →
    (t.response = some (.error .configurationError) ↔
      (∃ rd, i = .new rd ∨ i = .newv rd ∨ i = .cast rd) ∧ i.wellFormed s.params = true ∧
        (∀ r ∈ i.reads, s.valid r = true) ∧ ¬ LegalWidths s.params s.ports.a s.ports.b)

/-- 60_exceptions.md R212: LengthMismatch, from SETMANT and SETEXP only, exactly when the sequence is not as long as the
field. -/
def Obligations.LengthMismatchExactly : Prop :=
  ∀ (i : Instr) (s t : State), exec i s = .next t →
    (t.response = some (.error .lengthMismatch) ↔
      ∃ rd n, s.holds rd n ∧
        ((i = .setmant rd ∧ s.ports.d.length ≠ n.ml) ∨ (i = .setexp rd ∧ s.ports.d.length ≠ n.el)))

/-- 60_exceptions.md R213: PrecisionMismatch, from the commands with two source registers only, exactly when the shapes
of the two instances differ. -/
def Obligations.PrecisionMismatchExactly : Prop :=
  ∀ (i : Instr) (s t : State), exec i s = .next t →
    (t.response = some (.error .precisionMismatch) ↔
      i.wellFormed s.params = true ∧ ∃ r1 r2 x y,
        (i ∈ [Instr.eq r1 r2, .ne r1 r2, .lt r1 r2, .le r1 r2, .gt r1 r2, .ge r1 r2, .chkprec r1 r2] ∨
          ∃ rd, i ∈ [Instr.add rd r1 r2, .sub rd r1 r2, .mul rd r1 r2, .div rd r1 r2]) ∧
        s.inst r1 = some x ∧ s.inst r2 = some y ∧ (x.ml ≠ y.ml ∨ x.el ≠ y.el))

/-- 60_exceptions.md R214: NoInstance, exactly when a register the command reads (10_state.md R27) is invalid; never from
NEW and NEWV. -/
def Obligations.NoInstanceExactly : Prop :=
  ∀ (i : Instr) (s t : State), exec i s = .next t →
    ((t.response = some (.error .noInstance) ↔
      i.wellFormed s.params = true ∧ ∃ r ∈ i.reads, s.inst r = none) ∧
     (∀ rd, i = .new rd ∨ i = .newv rd → t.response ≠ some (.error .noInstance)))

/-- 60_exceptions.md R216: a command that ends with an error changes nothing but the response. -/
def Obligations.ErrorsChangeNothing : Prop :=
  ∀ (i : Instr) (s t : State) (e : Error), exec i s = .next t → t.response = some (.error e) → t = s.raised e

/-- 60_exceptions.md R217: IllegalCommand comes first (a word that does not decode, then a register number the engine
does not have), then NoInstance, before the command's own error. -/
def Obligations.ErrorPriority : Prop :=
  (∀ (s : State) (c : Command) (e : DecodeError), decode c.cw = .error e →
    takeEvent (.command c) s = .next (State.raised { s with ports := c.ports } .illegalCommand)) ∧
  (∀ (i : Instr) (s : State), i.wellFormed s.params = false → exec i s = .next (s.raised .illegalCommand)) ∧
  (∀ (i : Instr) (s : State) (r : Reg), i.wellFormed s.params = true → r ∈ i.reads → s.inst r = none →
    exec i s = .next (s.raised .noInstance))

/-! ## Whole-machine rules -/

/-- 10_state.md R25, R27, 00_scope.md R8: a command changes no register but the one its row marks as written, and a
command without such a register changes none; ports, parameters and later events stay as they are. -/
def Obligations.CommandsWriteOneRegister : Prop :=
  ∀ (i : Instr) (s t : State), exec i s = .next t →
    (∀ r, i.writes ≠ some r → t.inst r = s.inst r) ∧ (i.writes = none → t.regs = s.regs) ∧
    t.regs.length = s.regs.length ∧ t.params = s.params ∧ t.ports = s.ports ∧ t.inbox = s.inbox

/-- 20_memory.md R44: a command that writes no register is idempotent: presented again it changes nothing at all. -/
def Obligations.ReadOnlyCommandsAreIdempotent : Prop :=
  ∀ (i : Instr) (s t : State), i.writes = none → exec i s = .next t → exec i t = .next t

/-- 10_state.md R26: on success the destination is valid, and no command takes any `valid` from 1 to 0. -/
def Obligations.CommandsKeepInstancesValid : Prop :=
  ∀ (i : Instr) (s t : State), s.wf = true → exec i s = .next t →
    (∀ r, s.valid r = true → t.valid r = true) ∧
    (∀ rd p, i.writes = some rd → t.response = some (.ok p) → t.valid rd = true)

/-- 70_reset_and_hazards.md R240: reset is the only event that takes a `valid` bit from 1 to 0. -/
def Obligations.OnlyResetInvalidates : Prop :=
  ∀ (s t : State) (r : Reg), step s = .next t → s.valid r = true → t.valid r = false →
    ∃ rest, s.inbox = .reset :: rest

/-- 30_encoding.md R57, 10_state.md R23, R30, R31: what a command does depends on the registers and on the ports it uses,
and on nothing else: not on other ports, an earlier response, or what is presented later. -/
def Obligations.CommandsSeeOnlyRegistersAndTheirPorts : Prop :=
  ∀ (i : Instr) (s s' t : State), s'.params = s.params → s'.regs = s.regs →
    portsAgree i s.params s.ports s'.ports → exec i s = .next t →
    ∃ t', exec i s' = .next t' ∧ t'.regs = t.regs ∧ t'.response = t.response

/-- 30_encoding.md R58: every command that returns OK returns the payload kind its row names. -/
def Obligations.PayloadKinds : Prop :=
  ∀ (i : Instr) (s t : State) (p : Payload), s.wf = true → exec i s = .next t → t.response = some (.ok p) →
    payloadKind i s p
end

