-- ==== Sys2Proof/Laws/Bits.lean ====
section
/-! SUPPORT. Packing and unpacking bit arrays (00_scope.md R10), and the fields of an assembled array. -/

namespace Sys2Proof.Machine

theorem pack_foldl (b : Bits) (k : Nat) :
    b.foldl (fun n x => 2 * n + x.toNat) k = k * 2 ^ b.length + pack b := by
  induction b generalizing k with
  | nil => simp [pack]
  | cons x b ih =>
    simp only [pack, List.foldl_cons, List.length_cons]
    rw [ih, ih (2 * 0 + x.toNat)]
    ring

@[simp] theorem pack_nil : pack [] = 0 := rfl

theorem pack_cons (x : Bool) (b : Bits) : pack (x :: b) = x.toNat * 2 ^ b.length + pack b := by
  simp only [pack, List.foldl_cons]
  rw [pack_foldl]
  simp [pack]

theorem pack_append (a b : Bits) : pack (a ++ b) = pack a * 2 ^ b.length + pack b := by
  induction a with
  | nil => simp
  | cons x a ih => simp only [List.cons_append, pack_cons, ih, List.length_append]; ring

theorem pack_lt (b : Bits) : pack b < 2 ^ b.length := by
  induction b with
  | nil => simp
  | cons x b ih =>
    rw [pack_cons, List.length_cons, pow_succ]
    have : x.toNat ≤ 1 := Bool.toNat_le x
    nlinarith [Nat.mul_le_mul_right (2 ^ b.length) this]

@[simp] theorem unpack_length (n w : Nat) : (unpack n w).length = w := by
  induction w with
  | zero => rfl
  | succ w ih => simp [unpack, ih]

/-- `unpack` keeps the lowest `w` digits. -/
theorem pack_unpack (n w : Nat) : pack (unpack n w) = n % 2 ^ w := by
  induction w with
  | zero => simp [unpack, Nat.mod_one]
  | succ w ih =>
    rw [unpack, pack_cons, ih, unpack_length, Nat.mod_pow_succ, Nat.testBit_eq_decide_div_mod_eq]
    rcases Nat.mod_two_eq_zero_or_one (n / 2 ^ w) with h | h <;> simp [h, Nat.add_comm]

theorem unpack_congr {n k w : Nat} (h : n % 2 ^ w = k % 2 ^ w) : unpack n w = unpack k w := by
  induction w with
  | zero => rfl
  | succ w ih =>
    have hb : n.testBit w = k.testBit w := by
      have := congrArg (Nat.testBit · w) h
      simpa [Nat.testBit_mod_two_pow] using this
    have hm : n % 2 ^ w = k % 2 ^ w := by
      have := congrArg (· % 2 ^ w) h
      simpa [Nat.mod_mod_of_dvd _ (pow_dvd_pow 2 (Nat.le_succ w))] using this
    rw [unpack, unpack, hb, ih hm]

/-- `unpack` inverts `pack` at the array's own length. -/
theorem unpack_pack (b : Bits) : unpack (pack b) b.length = b := by
  induction b with
  | nil => rfl
  | cons x b ih =>
    have hlt := pack_lt b
    rw [List.length_cons, unpack]
    congr 1
    · rw [pack_cons, Nat.testBit_eq_decide_div_mod_eq, Nat.add_comm, Nat.add_mul_div_right _ _ (by positivity),
        Nat.div_eq_of_lt hlt]
      cases x <;> simp
    · refine (unpack_congr ?_).trans ih
      rw [pack_cons, Nat.add_comm, Nat.add_mul_mod_self_right]

theorem pack_inj {a b : Bits} (hl : a.length = b.length) (h : pack a = pack b) : a = b := by
  rw [← unpack_pack a, ← unpack_pack b, h, hl]

@[simp] theorem rep_length (x : Bool) (n : Nat) : (rep x n).length = n := by simp [rep]

theorem pack_rep_false (n : Nat) : pack (rep false n) = 0 := by
  induction n with
  | zero => rfl
  | succ n ih => rw [rep, List.replicate_succ, pack_cons, ← rep, ih]; simp

theorem pack_rep_true (n : Nat) : pack (rep true n) + 1 = 2 ^ n := by
  induction n with
  | zero => rfl
  | succ n ih =>
    rw [rep, List.replicate_succ, pack_cons, ← rep, rep_length, Nat.add_assoc, ih, pow_succ]
    simp; ring

/-- An array of the right length is its sign, its exponent field and its mantissa field. -/
theorem split_fields {b : Bits} {m e : Nat} (h : b.length = m + e + 1) :
    [signOf b] ++ expBits b e ++ mantBits b m e = b := by
  rcases b with _ | ⟨s, b⟩
  · simp at h
  · have hb : b.length = e + m := by simp at h; omega
    have hd : (b.drop e).take m = b.drop e := List.take_of_length_le (by simp [hb])
    simp [signOf, expBits, mantBits, hd]

theorem expBits_length {b : Bits} {m e : Nat} (h : b.length = m + e + 1) : (expBits b e).length = e := by
  simp [expBits, h]

theorem mantBits_length {b : Bits} {m e : Nat} (h : b.length = m + e + 1) :
    (mantBits b m e).length = m := by
  simp [mantBits, h]

/-- The fields of an array built from a sign, an exponent field and a mantissa field. -/
theorem fields_of_parts (s : Bool) {x y : Bits} {m e : Nat} (hx : x.length = e) (hy : y.length = m) :
    signOf ([s] ++ x ++ y) = s ∧ expBits ([s] ++ x ++ y) e = x ∧ mantBits ([s] ++ x ++ y) m e = y := by
  subst hx hy
  simp [signOf, expBits, mantBits]

theorem expField_lt {b : Bits} {m e : Nat} (h : b.length = m + e + 1) : expField b e < 2 ^ e := by
  have := pack_lt (expBits b e)
  rwa [expBits_length h] at this

theorem mantField_lt {b : Bits} {m e : Nat} (h : b.length = m + e + 1) : mantField b m e < 2 ^ m := by
  have := pack_lt (mantBits b m e)
  rwa [mantBits_length h] at this

end Sys2Proof.Machine
end

