-- ==== Sys2Proof/Laws/Decode.lean ====
section
/-! SUPPORT. The opcode and the fields of an assembled command word (30_encoding.md R59). -/

namespace Sys2Proof

theorem assemble_toNat (o : Nat) (x : Fields) (h : o < 256) : (assemble o x).toNat =
    o * 2 ^ 24 + x.rd.val * 2 ^ 20 + x.rs1.val * 2 ^ 16 + x.rs2.val * 2 ^ 12 + x.f.toNat := by
  have := Bool.toNat_le x.f
  have := x.rd.isLt
  have := x.rs1.isLt
  have := x.rs2.isLt
  simp only [assemble, BitVec.toNat_ofNat]
  omega

theorem opcodeOf_assemble (o : Nat) (x : Fields) (h : o < 256) : opcodeOf (assemble o x) = o := by
  have := Bool.toNat_le x.f
  have := x.rd.isLt
  have := x.rs1.isLt
  have := x.rs2.isLt
  simp only [opcodeOf, slice, assemble_toNat o x h]
  omega

theorem fieldsOf_assemble (o : Nat) (x : Fields) (h : o < 256) : fieldsOf (assemble o x) = x := by
  obtain ⟨rd, rs1, rs2, f⟩ := x
  have := rd.isLt
  have := rs1.isLt
  have := rs2.isLt
  simp only [fieldsOf, assemble_toNat o _ h, slice, Fields.mk.injEq]
  refine ⟨Fin.ext ?_, Fin.ext ?_, Fin.ext ?_, ?_⟩
  · have := Bool.toNat_le f; simp only [Fin.ofNat]; omega
  · have := Bool.toNat_le f; simp only [Fin.ofNat]; omega
  · have := Bool.toNat_le f; simp only [Fin.ofNat]; omega
  · cases f <;> simp <;> omega

end Sys2Proof
end

