-- ==== Sys2Proof/Laws/Values.lean ====
section
/-! SUPPORT. Powers of two, the binary logarithm and rounding (00_scope.md R13, R14), each said once. -/

namespace Sys2Proof.Machine

theorem pow2_eq (k : Int) : pow2 k = (2 : Rat) ^ k := by
  cases k with
  | ofNat n => simp [pow2]
  | negSucc n => simp [pow2, Rat.mkRat_eq_div, zpow_negSucc]

theorem pow2_pos (k : Int) : 0 < pow2 k := by rw [pow2_eq]; positivity

theorem pow2_add (j k : Int) : pow2 (j + k) = pow2 j * pow2 k := by
  simp only [pow2_eq, zpow_add₀ (by norm_num : (2 : Rat) ≠ 0)]

theorem pow2_natCast (n : Nat) : pow2 (n : Int) = ((2 ^ n : Nat) : Rat) := by simp [pow2_eq]

theorem pow2_le {j k : Int} (h : j ≤ k) : pow2 j ≤ pow2 k := by
  simp only [pow2_eq]; exact zpow_le_zpow_right₀ (by norm_num) h

theorem pow2_lt {j k : Int} (h : j < k) : pow2 j < pow2 k := by
  simp only [pow2_eq]; exact zpow_lt_zpow_right₀ (by norm_num) h

theorem pow2_lt_iff {j k : Int} : pow2 j < pow2 k ↔ j < k :=
  ⟨fun h => by by_contra hk; exact absurd (pow2_le (not_lt.1 hk)) (not_le.2 h), pow2_lt⟩

theorem absRat_eq (q : Rat) : absRat q = |q| := by
  unfold absRat
  split
  · next h => rw [abs_of_neg h]
  · next h => rw [abs_of_nonneg (not_lt.1 h)]

theorem absRat_pos {q : Rat} (h : q ≠ 0) : 0 < absRat q := by rw [absRat_eq]; exact abs_pos.2 h

/-- The two candidates for the logarithm of a positive rational. -/
theorem floorlog2_candidates {a : Rat} (ha : 0 < a) :
    pow2 ((a.num.toNat.log2 : Int) - (a.den.log2 : Int) - 1) ≤ a ∧
      a < pow2 ((a.num.toNat.log2 : Int) - (a.den.log2 : Int) + 1) := by
  have hn : 0 < a.num := Rat.num_pos.2 ha
  set n := a.num.toNat with hndef
  have hnn : (n : Int) = a.num := Int.toNat_of_nonneg hn.le
  have hn0 : n ≠ 0 := by omega
  have hd0 : a.den ≠ 0 := a.den_nz
  have haq : a = (n : Rat) / (a.den : Rat) := by
    conv_lhs => rw [← Rat.num_div_den a]
    rw [← hnn]; simp
  have n1 : ((2 ^ n.log2 : Nat) : Rat) ≤ n := by exact_mod_cast Nat.log2_self_le hn0
  have n2 : (n : Rat) < ((2 ^ (n.log2 + 1) : Nat) : Rat) := by exact_mod_cast Nat.lt_log2_self
  have d1 : ((2 ^ a.den.log2 : Nat) : Rat) ≤ a.den := by exact_mod_cast Nat.log2_self_le hd0
  have d2 : (a.den : Rat) < ((2 ^ (a.den.log2 + 1) : Nat) : Rat) := by exact_mod_cast Nat.lt_log2_self
  have hdpos : (0 : Rat) < a.den := by exact_mod_cast Nat.pos_of_ne_zero hd0
  generalize a.den = d at *
  clear_value n
  constructor
  · rw [haq, le_div_iff₀ hdpos]
    refine le_trans (mul_le_mul_of_nonneg_left d2.le (pow2_pos _).le) ?_
    rw [← pow2_natCast, ← pow2_add]
    refine le_trans (le_of_eq ?_) n1
    rw [← pow2_natCast]; congr 1; push_cast; ring
  · rw [haq, div_lt_iff₀ hdpos]
    refine lt_of_lt_of_le n2 (le_trans (le_of_eq ?_) (mul_le_mul_of_nonneg_left d1 (pow2_pos _).le))
    rw [← pow2_natCast, ← pow2_natCast, ← pow2_add]; congr 1; push_cast; ring

/-- `floorlog2` is the integer of 00_scope.md R14. -/
theorem floorlog2_spec {a : Rat} (ha : 0 < a) : pow2 (floorlog2 a) ≤ a ∧ a < pow2 (floorlog2 a + 1) := by
  obtain ⟨h1, h2⟩ := floorlog2_candidates ha
  unfold floorlog2
  by_cases h : pow2 ((a.num.toNat.log2 : Int) - (a.den.log2 : Int)) ≤ a
  · simp only [h, if_true]; exact ⟨trivial, h2⟩
  · simp only [h, if_false]; exact ⟨h1, by simpa using not_le.1 h⟩

/-- No other integer has that property. -/
theorem floorlog2_unique {a : Rat} {k : Int} (h1 : pow2 k ≤ a) (h2 : a < pow2 (k + 1)) : floorlog2 a = k := by
  obtain ⟨g1, g2⟩ := floorlog2_spec (lt_of_lt_of_le (pow2_pos k) h1)
  have a1 : k < floorlog2 a + 1 := pow2_lt_iff.1 (lt_of_le_of_lt h1 g2)
  have a2 : floorlog2 a < k + 1 := pow2_lt_iff.1 (lt_of_le_of_lt g1 h2)
  omega

/-- `rne` is a nearest integer, and the even one on a tie (00_scope.md R14). -/
theorem rne_spec {x : Rat} (hx : 0 ≤ x) :
    |x - (rne x : Rat)| ≤ 1 / 2 ∧ (|x - (rne x : Rat)| = 1 / 2 → rne x % 2 = 0) := by
  have hf : (0 : Int) ≤ x.floor := Rat.le_floor_iff.2 (by exact_mod_cast hx)
  have hcast : ((x.floor.toNat : Nat) : Rat) = (x.floor : Rat) := by
    have := Int.toNat_of_nonneg hf
    exact_mod_cast congrArg (Int.cast : Int → Rat) this
  have l1 : (x.floor : Rat) ≤ x := Rat.floor_le x
  have l2 : x < (x.floor : Rat) + 1 := by exact_mod_cast Rat.lt_floor_add_one x
  rw [← hcast] at l1 l2
  unfold rne
  set f := x.floor.toNat with hfdef
  simp only
  split_ifs with c1 c2 c3
  · rw [abs_of_nonneg (by linarith)]
    exact ⟨by linarith, fun h => by linarith⟩
  · rw [abs_of_nonpos (by push_cast; linarith)]
    push_cast
    exact ⟨by linarith, fun h => by linarith⟩
  · rw [abs_of_nonneg (by linarith)]
    exact ⟨by linarith, fun _ => c3⟩
  · rw [abs_of_nonpos (by push_cast; linarith)]
    push_cast
    exact ⟨by linarith, fun _ => by omega⟩

/-- No other natural number has that property. -/
theorem rne_unique {x : Rat} {n : Nat} (hx : 0 ≤ x) (h1 : |x - (n : Rat)| ≤ 1 / 2)
    (h2 : |x - (n : Rat)| = 1 / 2 → n % 2 = 0) : rne x = n := by
  obtain ⟨g1, g2⟩ := rne_spec hx
  by_contra hne
  rw [abs_le] at h1 g1
  have hd : (rne x : Rat) - n = 1 ∨ (n : Rat) - rne x = 1 := by
    rcases lt_or_gt_of_ne hne with h | h
    · right
      have a1 : (rne x : Rat) + 1 ≤ n := by exact_mod_cast h
      linarith
    · left
      have a1 : (n : Rat) + 1 ≤ rne x := by exact_mod_cast h
      linarith
  rcases hd with hd | hd
  · have e1 := h2 (by rw [abs_of_nonneg] <;> linarith)
    have e2 := g2 (by rw [abs_of_nonpos] <;> linarith)
    have : (rne x : Rat) = (n + 1 : Nat) := by push_cast; linarith
    have : rne x = n + 1 := by exact_mod_cast this
    omega
  · have e1 := h2 (by rw [abs_of_nonpos] <;> linarith)
    have e2 := g2 (by rw [abs_of_nonneg] <;> linarith)
    have : (n : Rat) = (rne x + 1 : Nat) := by push_cast; linarith
    have : n = rne x + 1 := by exact_mod_cast this
    omega

/-- Rounding an integer changes nothing. -/
@[simp] theorem rne_natCast (n : Nat) : rne (n : Rat) = n :=
  rne_unique (by positivity) (by simp) (by simp)

/-- Rounding is monotone. -/
theorem rne_mono {x y : Rat} (hx : 0 ≤ x) (h : x ≤ y) : rne x ≤ rne y := by
  obtain ⟨a1, a2⟩ := rne_spec hx
  obtain ⟨b1, b2⟩ := rne_spec (hx.trans h)
  by_contra hlt
  have hge : (rne y : Rat) + 1 ≤ rne x := by exact_mod_cast not_le.1 hlt
  rw [abs_le] at a1 b1
  have e1 := a2 (by rw [abs_of_nonpos] <;> linarith)
  have e2 := b2 (by rw [abs_of_nonneg] <;> linarith)
  have : (rne x : Rat) = (rne y + 1 : Nat) := by push_cast; linarith
  have : rne x = rne y + 1 := by exact_mod_cast this
  omega

theorem bias_eq {e : Nat} (h : 1 ≤ e) : 2 * (bias e + 1) = 2 ^ e := by
  obtain ⟨k, rfl⟩ := Nat.exists_eq_add_of_le' h
  simp [bias, pow_succ, mul_comm]

theorem efmax_add_one (e : Nat) : efmax e + 1 = 2 ^ e := by
  have := Nat.one_le_two_pow (n := e); simp only [efmax]; omega

theorem efmax_pos {e : Nat} (h : 1 ≤ e) : 0 < efmax e := by
  have : 2 ^ 1 ≤ 2 ^ e := Nat.pow_le_pow_right (by norm_num) h
  simp only [efmax]; omega

@[simp] theorem neg_neg_val (v : Val) : neg (neg v) = v := by cases v <;> simp [neg]

@[simp] theorem valOk_neg (v : Val) : valOk (neg v) = valOk v := by cases v <;> simp [valOk, neg]

theorem extReal_lt_trichotomy (p q : ExtReal) :
    (ExtReal.lt p q = true ∧ p ≠ q ∧ ExtReal.lt q p = false) ∨
      (ExtReal.lt p q = false ∧ p = q ∧ ExtReal.lt q p = false) ∨
      (ExtReal.lt p q = false ∧ p ≠ q ∧ ExtReal.lt q p = true) := by
  rcases p with _ | p | _ <;> rcases q with _ | q | _ <;> simp [ExtReal.lt]
  rcases lt_trichotomy p q with h | h | h
  · simp [h, h.ne, h.le]
  · simp [h]
  · simp [h, h.ne', h.le]

theorem extReal_le_iff (p q : ExtReal) : ExtReal.le p q = (ExtReal.lt p q || decide (p = q)) := by
  rcases p with _ | p | _ <;> rcases q with _ | q | _ <;> simp [ExtReal.lt, ExtReal.le, le_iff_lt_or_eq]

end Sys2Proof.Machine
end

