-- ==== Sys2Proof/Laws/NumberFormat.lean ====
section
/-! SUPPORT. The number format: lengths, and the fields of the patterns the encoder and the setters write. -/

namespace Sys2Proof.Machine

@[simp] theorem zeroBits_length (s : Bool) (m e : Nat) : (zeroBits s m e).length = m + e + 1 := by
  simp [zeroBits]; omega

@[simp] theorem infBits_length (s : Bool) (m e : Nat) : (infBits s m e).length = m + e + 1 := by
  simp [infBits]; omega

theorem nanBits_length (s : Bool) {m : Nat} (e : Nat) (h : 1 ≤ m) : (nanBits s m e).length = m + e + 1 := by
  simp [nanBits]; omega

/-- What the encoder writes has the length of the shape (10_state.md R21). -/
theorem encodeNum_length (v : Val) {m : Nat} (e : Nat) (h : 1 ≤ m) : (encodeNum v m e).length = m + e + 1 := by
  cases v with
  | nan => exact nanBits_length false e h
  | inf s => simp [encodeNum]
  | zero s => simp [encodeNum]
  | fin q =>
    simp only [encodeNum]
    split
    · simp
    · simp; omega

@[simp] theorem hostBits_length (p : Params) (v : Nat) : (hostBits p v).length = p.hostM + p.hostE + 1 := by
  simp [hostBits]

/-- The fields of a pattern given by a sign and two fields as numbers. -/
theorem fields_of_numbers (s : Bool) (x y m e : Nat) :
    signOf ([s] ++ unpack x e ++ unpack y m) = s ∧
      expField ([s] ++ unpack x e ++ unpack y m) e = x % 2 ^ e ∧
      mantField ([s] ++ unpack x e ++ unpack y m) m e = y % 2 ^ m := by
  obtain ⟨h1, h2, h3⟩ := fields_of_parts s (unpack_length x e) (unpack_length y m)
  exact ⟨h1, by rw [expField, h2, pack_unpack], by rw [mantField, h3, pack_unpack]⟩

theorem fields_zeroBits (s : Bool) (m e : Nat) :
    signOf (zeroBits s m e) = s ∧ expField (zeroBits s m e) e = 0 ∧ mantField (zeroBits s m e) m e = 0 := by
  obtain ⟨h1, h2, h3⟩ := fields_of_parts s (rep_length false e) (rep_length false m)
  exact ⟨h1, by rw [expField, zeroBits, h2, pack_rep_false], by rw [mantField, zeroBits, h3, pack_rep_false]⟩

theorem fields_infBits (s : Bool) (m e : Nat) :
    signOf (infBits s m e) = s ∧ expField (infBits s m e) e = efmax e ∧ mantField (infBits s m e) m e = 0 := by
  obtain ⟨h1, h2, h3⟩ := fields_of_parts s (rep_length true e) (rep_length false m)
  refine ⟨h1, ?_, by rw [mantField, infBits, h3, pack_rep_false]⟩
  rw [expField, infBits, h2]
  have := pack_rep_true e
  simp only [efmax]; omega

theorem fields_nanBits (s : Bool) {m : Nat} (e : Nat) (h : 1 ≤ m) :
    signOf (nanBits s m e) = s ∧ expField (nanBits s m e) e = efmax e ∧
      mantField (nanBits s m e) m e = 2 ^ (m - 1) := by
  have hl : ([true] ++ rep false (m - 1)).length = m := by simp; omega
  obtain ⟨h1, h2, h3⟩ := fields_of_parts s (rep_length true e) hl
  simp only [← List.append_assoc] at h1 h2 h3
  refine ⟨h1, ?_, ?_⟩
  · rw [expField, nanBits, h2]
    have := pack_rep_true e
    simp only [efmax]; omega
  · rw [mantField, nanBits, h3, pack_append, pack_rep_false]
    simp [pack]

/-- Two arrays of one shape with the same sign and fields are the same array. -/
theorem bits_ext {a b : Bits} {m e : Nat} (ha : a.length = m + e + 1) (hb : b.length = m + e + 1)
    (hs : signOf a = signOf b) (he : expField a e = expField b e) (hm : mantField a m e = mantField b m e) :
    a = b := by
  rw [← split_fields ha, ← split_fields hb, hs,
    pack_inj (by rw [expBits_length ha, expBits_length hb]) he,
    pack_inj (by rw [mantBits_length ha, mantBits_length hb]) hm]

theorem signFactor_ne_zero (s : Bool) : signFactor s ≠ 0 := by cases s <;> simp [signFactor]

/-- A decoded value is in the domain of 00_scope.md R12: a `fin` holds a nonzero rational (40_codec.md R80). -/
theorem decodeNum_ok (b : Bits) (m e : Nat) : valOk (decodeNum b m e) = true := by
  unfold decodeNum
  have h2 := fun k => (pow2_pos k).ne'
  have hm : ((2 ^ m : Nat) : Rat) ≠ 0 := by positivity
  simp only
  split_ifs with c1 c2 c3 c4
  · rfl
  · have : mantField b m e ≠ 0 := fun h => c1 ⟨c2, h⟩
    have : (mantField b m e : Rat) ≠ 0 := by exact_mod_cast this
    simp [valOk, signFactor_ne_zero, h2, this]
  · rfl
  · rfl
  · have : (1 + (mantField b m e : Rat) / ((2 ^ m : Nat) : Rat)) ≠ 0 := by positivity
    simp only [valOk, ne_eq, mul_eq_zero, signFactor_ne_zero, this, h2, or_self, not_false_eq_true, decide_true]

end Sys2Proof.Machine
end

