-- ==== Sys2Proof/Laws/State.lean ====
section
/-! SUPPORT. One lemma per field of State per update, and reading a register after writing one. -/

namespace Sys2Proof.Machine

variable (s : State) (r r' : Reg) (n : Instance) (p : Payload) (e : Error) (cw : CmdWord)

@[simp] theorem setInst_params : (s.setInst r n).params = s.params := rfl
@[simp] theorem setInst_ports : (s.setInst r n).ports = s.ports := rfl
@[simp] theorem setInst_inbox : (s.setInst r n).inbox = s.inbox := rfl
@[simp] theorem setInst_response : (s.setInst r n).response = s.response := rfl
@[simp] theorem setInst_regs : (s.setInst r n).regs = s.regs.set r.val (some n) := rfl

@[simp] theorem respond_params : (s.respond p).params = s.params := rfl
@[simp] theorem respond_ports : (s.respond p).ports = s.ports := rfl
@[simp] theorem respond_inbox : (s.respond p).inbox = s.inbox := rfl
@[simp] theorem respond_response : (s.respond p).response = some (.ok p) := rfl
@[simp] theorem respond_regs : (s.respond p).regs = s.regs := rfl

@[simp] theorem raise_params : (s.raise e).params = s.params := rfl
@[simp] theorem raise_ports : (s.raise e).ports = s.ports := rfl
@[simp] theorem raise_inbox : (s.raise e).inbox = s.inbox := rfl
@[simp] theorem raise_response : (s.raise e).response = some (.error e) := rfl
@[simp] theorem raise_regs : (s.raise e).regs = s.regs := rfl

@[simp] theorem idle_params : s.idle.params = s.params := rfl
@[simp] theorem idle_ports : s.idle.ports = s.ports := rfl
@[simp] theorem idle_inbox : s.idle.inbox = s.inbox := rfl
@[simp] theorem idle_response : s.idle.response = none := rfl
@[simp] theorem idle_regs : s.idle.regs = s.regs := rfl

@[simp] theorem resetEngine_params : s.resetEngine.params = s.params := rfl
@[simp] theorem resetEngine_ports : s.resetEngine.ports = s.ports := rfl
@[simp] theorem resetEngine_inbox : s.resetEngine.inbox = s.inbox := rfl
@[simp] theorem resetEngine_response : s.resetEngine.response = none := rfl
@[simp] theorem resetEngine_regs : s.resetEngine.regs = noInstances s.params := rfl

@[simp] theorem present_params : (s.present cw).params = s.params := rfl
@[simp] theorem present_ports : (s.present cw).ports = s.ports := rfl
@[simp] theorem present_inbox :
    (s.present cw).inbox = .command { cw := cw, ports := s.ports } :: s.inbox := rfl
@[simp] theorem present_response : (s.present cw).response = s.response := rfl
@[simp] theorem present_regs : (s.present cw).regs = s.regs := rfl

/-- Reading a register looks at the register file only. -/
theorem inst_congr {s t : State} (h : t.regs = s.regs) : t.inst r = s.inst r := by
  simp [State.inst, h]

@[simp] theorem respond_inst : (s.respond p).inst r = s.inst r := rfl
@[simp] theorem raise_inst : (s.raise e).inst r = s.inst r := rfl
@[simp] theorem idle_inst : s.idle.inst r = s.inst r := rfl
@[simp] theorem present_inst : (s.present cw).inst r = s.inst r := rfl

@[simp] theorem resetEngine_inst : s.resetEngine.inst r = none := by
  by_cases h : r.val < s.params.nreg <;> simp [State.inst, noInstances, h]

/-- A register that was written reads as written. -/
theorem setInst_inst_same (h : r.val < s.regs.length) : (s.setInst r n).inst r = some n := by
  simp [State.inst, h]

/-- A write reaches no other register (10_state.md R25). -/
theorem setInst_inst_ne (h : r ≠ r') : (s.setInst r n).inst r' = s.inst r' := by
  have : r.val ≠ r'.val := fun hv => h (Fin.ext hv)
  simp [State.inst, List.getElem?_set_ne this]

/-- A register that holds an instance is a register of the file. -/
theorem inst_lt_length {s : State} {r : Reg} {n : Instance} (h : s.inst r = some n) :
    r.val < s.regs.length := by
  by_contra hlt
  simp [State.inst, List.getElem?_eq_none (Nat.le_of_not_lt hlt)] at h

/-- What `State.wf` says, as three facts. -/
theorem wf_iff : s.wf = true ↔
    s.params.legal = true ∧ s.regs.length = s.params.nreg ∧
      ∀ n, some n ∈ s.regs → n.wf s.params = true := by
  simp only [State.wf, Bool.and_eq_true, beq_iff_eq, List.all_eq_true, and_assoc]
  refine and_congr_right fun _ => and_congr_right fun _ => ⟨fun h n hn => h _ hn, ?_⟩
  rintro h (_ | n) hn
  · rfl
  · exact h n hn

/-- An instance read from a well-formed state is well formed. -/
theorem wf_inst {s : State} {r : Reg} {n : Instance} (hs : s.wf = true) (h : s.inst r = some n) :
    n.wf s.params = true := by
  refine ((wf_iff s).1 hs).2.2 n ?_
  have hlt := inst_lt_length h
  simp only [State.inst, List.getElem?_eq_getElem hlt, Option.join_some] at h
  exact h ▸ List.getElem_mem hlt

/-- Writing a well-formed instance keeps the state well formed. -/
theorem wf_setInst {s : State} (hs : s.wf = true) (hn : n.wf s.params = true) :
    (s.setInst r n).wf = true := by
  obtain ⟨hp, hl, hr⟩ := (wf_iff s).1 hs
  refine (wf_iff _).2 ⟨hp, by simpa using hl, fun k hk => ?_⟩
  rcases List.mem_or_eq_of_mem_set hk with h | h
  · exact hr k h
  · cases h; exact hn

/-- The invariant looks at the parameters and the registers only. -/
theorem wf_congr {s t : State} (hp : t.params = s.params) (hr : t.regs = s.regs) : t.wf = s.wf := by
  simp [State.wf, hp, hr]

/-- The width check, in words. -/
theorem widthsOk_iff (q : Params) (a b : Nat) : widthsOk q a b = true ↔ LegalWidths q a b := by
  cases hc : q.cap <;> simp [widthsOk, LegalWidths, hc, and_assoc]

/-- What R21 says of an instance, as facts. -/
theorem instance_wf_iff (q : Params) (k : Instance) :
    k.wf q = true ↔ LegalWidths q k.ml k.el ∧ k.bits.length = k.ml + k.el + 1 := by
  simp [Instance.wf, ← widthsOk_iff]

end Sys2Proof.Machine
end

