-- ==== Sys2Proof/Laws/Ops.lean ====
section
/-! SUPPORT. What each shared operation can answer, said once; and what a command can do to a state. -/

namespace Sys2Proof.Machine

variable {s t : State}

theorem next_inj {a b : State} (h : (Host.Outcome.next a : Result) = .next b) : a = b := by
  cases h; rfl

theorem withDest_next {rd : Reg} {body : Result} (h : withDest s rd body = .next t) :
    (s.hasReg rd = true ∧ body = .next t) ∨ (s.hasReg rd = false ∧ t = s.raise .illegalCommand) := by
  unfold withDest at h
  split at h
  · next hr => exact .inl ⟨hr, h⟩
  · next hr => exact .inr ⟨by simpa using hr, (next_inj h).symm⟩

theorem withSource_next {used : List Reg} {r : Reg} {body : Instance → Result}
    (h : withSource s used r body = .next t) :
    (used.all s.hasReg = true ∧ ∃ n, s.inst r = some n ∧ body n = .next t) ∨
      (used.all s.hasReg = true ∧ s.inst r = none ∧ t = s.raise .noInstance) ∨
      (used.all s.hasReg = false ∧ t = s.raise .illegalCommand) := by
  unfold withSource at h
  split at h
  · next hr =>
    cases hn : s.inst r with
    | some n => rw [hn] at h; exact .inl ⟨hr, n, rfl, h⟩
    | none => rw [hn] at h; exact .inr (.inl ⟨hr, rfl, (next_inj h).symm⟩)
  · next hr => exact .inr (.inr ⟨by simpa using hr, (next_inj h).symm⟩)

theorem withSources_next {used : List Reg} {rs1 rs2 : Reg} {body : Instance → Instance → Result}
    (h : withSources s used rs1 rs2 body = .next t) :
    (used.all s.hasReg = true ∧ ∃ x y, s.inst rs1 = some x ∧ s.inst rs2 = some y ∧ body x y = .next t) ∨
      (used.all s.hasReg = true ∧ (s.inst rs1 = none ∨ s.inst rs2 = none) ∧ t = s.raise .noInstance) ∨
      (used.all s.hasReg = false ∧ t = s.raise .illegalCommand) := by
  unfold withSources at h
  split at h
  · next hr =>
    cases hx : s.inst rs1 with
    | none => rw [hx] at h; exact .inr (.inl ⟨hr, .inl rfl, (next_inj h).symm⟩)
    | some x =>
      cases hy : s.inst rs2 with
      | none => rw [hx, hy] at h; exact .inr (.inl ⟨hr, .inr rfl, (next_inj h).symm⟩)
      | some y => rw [hx, hy] at h; exact .inl ⟨hr, x, y, rfl, rfl, h⟩
  · next hr => exact .inr (.inr ⟨by simpa using hr, (next_inj h).symm⟩)

theorem withWidths_next {body : Result} (h : withWidths s body = .next t) :
    (widthsOk s.params s.ports.a s.ports.b = true ∧ body = .next t) ∨
      (widthsOk s.params s.ports.a s.ports.b = false ∧ t = s.raise .configurationError) := by
  unfold withWidths at h
  split at h
  · next hr => exact .inl ⟨hr, h⟩
  · next hr => exact .inr ⟨by simpa using hr, (next_inj h).symm⟩

theorem setField_next {rd : Reg} {n : Instance} {start width : Nat} (h : setField s rd n start width = .next t) :
    (s.ports.d.length = width ∧
        t = (s.setInst rd { n with bits := replaceField n.bits start s.ports.d }).respond .none) ∨
      (s.ports.d.length ≠ width ∧ t = s.raise .lengthMismatch) := by
  unfold setField writeOk at h
  split at h
  · next hr => exact .inl ⟨hr, (next_inj h).symm⟩
  · next hr => exact .inr ⟨hr, (next_inj h).symm⟩

theorem binop_next {op : Val → Val → Val} {rd rs1 rs2 : Reg} (h : binop op rd rs1 rs2 s = .next t) :
    (∃ x y, s.inst rs1 = some x ∧ s.inst rs2 = some y ∧ sameShape x y = true ∧
        t = (s.setInst rd (instanceOf (op x.val y.val) x.ml x.el)).respond .none) ∨
      (∃ e, t = s.raise e) := by
  rcases withSources_next h with ⟨-, x, y, hx, hy, hb⟩ | ⟨-, -, ht⟩ | ⟨-, ht⟩
  · simp only [writeOk] at hb
    split at hb
    · next hs => exact .inl ⟨x, y, hx, hy, hs, (next_inj hb).symm⟩
    · exact .inr ⟨_, (next_inj hb).symm⟩
  · exact .inr ⟨_, ht⟩
  · exact .inr ⟨_, ht⟩

theorem relop_next {rel : Nat → Nat → Val → Val → Bool} {rs1 rs2 : Reg} (h : relop rel rs1 rs2 s = .next t) :
    (∃ x y, s.inst rs1 = some x ∧ s.inst rs2 = some y ∧ sameShape x y = true ∧
        t = s.respond (.bool (rel x.ml x.el x.val y.val))) ∨
      (∃ e, t = s.raise e) := by
  rcases withSources_next h with ⟨-, x, y, hx, hy, hb⟩ | ⟨-, -, ht⟩ | ⟨-, ht⟩
  · simp only [answer] at hb
    split at hb
    · next hs => exact .inl ⟨x, y, hx, hy, hs, (next_inj hb).symm⟩
    · exact .inr ⟨_, (next_inj hb).symm⟩
  · exact .inr ⟨_, ht⟩
  · exact .inr ⟨_, ht⟩

/-- A command that reads one register and answers without writing. -/
theorem query_next {r : Reg} {p : Instance → Payload}
    (h : withSource s [r] r (fun n => answer s (p n)) = .next t) :
    (∃ n, s.inst r = some n ∧ t = s.respond (p n)) ∨ (∃ e, t = s.raise e) := by
  rcases withSource_next h with ⟨-, n, hn, hb⟩ | ⟨-, -, ht⟩ | ⟨-, ht⟩
  · exact .inl ⟨n, hn, (next_inj hb).symm⟩
  · exact .inr ⟨_, ht⟩
  · exact .inr ⟨_, ht⟩

/-- A command that rewrites one register from what another (or the same) holds. -/
theorem rewrite_next {used : List Reg} {rd r : Reg} {f : Instance → Instance}
    (h : withSource s used r (fun n => writeOk s rd (f n)) = .next t) :
    (∃ n, s.inst r = some n ∧ t = (s.setInst rd (f n)).respond .none) ∨ (∃ e, t = s.raise e) := by
  rcases withSource_next h with ⟨-, n, hn, hb⟩ | ⟨-, -, ht⟩ | ⟨-, ht⟩
  · exact .inl ⟨n, hn, (next_inj hb).symm⟩
  · exact .inr ⟨_, ht⟩
  · exact .inr ⟨_, ht⟩

/-- What a command can do to a state, whatever the command: raise an error, answer, or write the one register its row of
10_state.md R27 marks and respond OK. -/
def Effect (i : Instr) (s t : State) : Prop :=
  (∃ e, t = s.raise e) ∨ (∃ p, t = s.respond p) ∨
    (∃ rd n, i.writes = some rd ∧ t = (s.setInst rd n).respond .none)

theorem effect_of_query {i : Instr} {r : Reg} {p : Instance → Payload}
    (h : withSource s [r] r (fun n => answer s (p n)) = .next t) : Effect i s t := by
  rcases query_next h with ⟨n, -, ht⟩ | he
  · exact .inr (.inl ⟨_, ht⟩)
  · exact .inl he

theorem effect_of_rewrite {i : Instr} {used : List Reg} {rd r : Reg} {f : Instance → Instance}
    (hw : i.writes = some rd) (h : withSource s used r (fun n => writeOk s rd (f n)) = .next t) : Effect i s t := by
  rcases rewrite_next h with ⟨n, -, ht⟩ | he
  · exact .inr (.inr ⟨rd, _, hw, ht⟩)
  · exact .inl he

theorem effect_of_relop {i : Instr} {rel : Nat → Nat → Val → Val → Bool} {rs1 rs2 : Reg}
    (h : relop rel rs1 rs2 s = .next t) : Effect i s t := by
  rcases relop_next h with ⟨x, y, -, -, -, ht⟩ | he
  · exact .inr (.inl ⟨_, ht⟩)
  · exact .inl he

theorem effect_of_binop {i : Instr} {op : Val → Val → Val} {rd rs1 rs2 : Reg} (hw : i.writes = some rd)
    (h : binop op rd rs1 rs2 s = .next t) : Effect i s t := by
  rcases binop_next h with ⟨x, y, -, -, -, ht⟩ | he
  · exact .inr (.inr ⟨rd, _, hw, ht⟩)
  · exact .inl he

theorem effect_of_construct {i : Instr} {rd : Reg} {n : Instance} (hw : i.writes = some rd)
    (h : withDest s rd (withWidths s (writeOk s rd n)) = .next t) : Effect i s t := by
  rcases withDest_next h with ⟨-, h⟩ | ⟨-, ht⟩
  · rcases withWidths_next h with ⟨-, h⟩ | ⟨-, ht⟩
    · exact .inr (.inr ⟨rd, n, hw, (next_inj h).symm⟩)
    · exact .inl ⟨_, ht⟩
  · exact .inl ⟨_, ht⟩

theorem effect_of_setField {i : Instr} {rd : Reg} {start width : Instance → Nat} (hw : i.writes = some rd)
    (h : withSource s [rd] rd (fun n => setField s rd n (start n) (width n)) = .next t) : Effect i s t := by
  rcases withSource_next h with ⟨-, n, -, hb⟩ | ⟨-, -, ht⟩ | ⟨-, ht⟩
  · rcases setField_next hb with ⟨-, ht⟩ | ⟨-, ht⟩
    · exact .inr (.inr ⟨rd, _, hw, ht⟩)
    · exact .inl ⟨_, ht⟩
  · exact .inl ⟨_, ht⟩
  · exact .inl ⟨_, ht⟩

theorem effect_of_cast {rd : Reg} (h : execCast rd s = .next t) : Effect (.cast rd) s t := by
  rcases withSource_next h with ⟨-, n, -, hb⟩ | ⟨-, -, ht⟩ | ⟨-, ht⟩
  · rcases withWidths_next hb with ⟨-, hb⟩ | ⟨-, ht⟩
    · split at hb
      · exact .inr (.inl ⟨_, (next_inj hb).symm⟩)
      · exact .inr (.inr ⟨rd, _, rfl, (next_inj hb).symm⟩)
    · exact .inl ⟨_, ht⟩
  · exact .inl ⟨_, ht⟩
  · exact .inl ⟨_, ht⟩

/-- The inversion lemma of `exec`. -/
theorem exec_effect {i : Instr} (h : exec i s = .next t) : Effect i s t := by
  cases i with
  | new rd => exact effect_of_construct rfl h
  | newv rd => exact effect_of_construct rfl h
  | getval r => exact effect_of_query h
  | getml r => exact effect_of_query h
  | getel r => exact effect_of_query h
  | getlen r => exact effect_of_query h
  | getbits r => exact effect_of_query h
  | setmant rd => exact effect_of_setField rfl h
  | setexp rd => exact effect_of_setField rfl h
  | setsign rd f => exact effect_of_rewrite rfl h
  | iszero r => exact effect_of_query h
  | isnan r => exact effect_of_query h
  | isinf r => exact effect_of_query h
  | ispos r => exact effect_of_query h
  | setzero rd f => exact effect_of_rewrite rfl h
  | setnan rd f => exact effect_of_rewrite rfl h
  | setinf rd f => exact effect_of_rewrite rfl h
  | add rd rs1 rs2 => exact effect_of_binop rfl h
  | sub rd rs1 rs2 => exact effect_of_binop rfl h
  | mul rd rs1 rs2 => exact effect_of_binop rfl h
  | div rd rs1 rs2 => exact effect_of_binop rfl h
  | eq rs1 rs2 => exact effect_of_relop (rel := fun _ _ => veq) h
  | ne rs1 rs2 => exact effect_of_relop (rel := fun _ _ => vne) h
  | lt rs1 rs2 => exact effect_of_relop (rel := fun _ _ => vlt) h
  | le rs1 rs2 => exact effect_of_relop (rel := fun _ _ => vle) h
  | gt rs1 rs2 => exact effect_of_relop (rel := fun _ _ => vgt) h
  | ge rs1 rs2 => exact effect_of_relop (rel := fun _ _ => vge) h
  | chkprec rs1 rs2 => exact effect_of_relop h
  | cast rd => exact effect_of_cast h
  | copy rd rs1 => exact effect_of_rewrite (f := id) rfl h

end Sys2Proof.Machine
end

