-- ==== Sys2Proof/Laws/PerInstr.lean ====
section
/-! SUPPORT. Statements about every command as syntax, one lemma per constructor of Instr. -/

namespace Sys2Proof.Laws.RowFound

/-- The opcode map (30_encoding.md R62) has a row for the command: its opcode finds the row, and the row makes the
command again from the fields the encoder spells it with. -/
def Statement (i : Instr) : Prop :=
  ∃ (opcode : Nat) (x : Fields) (row : OpcodeRow),
    encode i = assemble opcode x ∧ findRow opcode = some row ∧ row.opcode = opcode ∧ row.build x = i

theorem new (rd : Reg) : Statement (.new rd) := ⟨_, _, _, rfl, rfl, rfl, rfl⟩
theorem newv (rd : Reg) : Statement (.newv rd) := ⟨_, _, _, rfl, rfl, rfl, rfl⟩
theorem getval (rs1 : Reg) : Statement (.getval rs1) := ⟨_, _, _, rfl, rfl, rfl, rfl⟩
theorem getml (rs1 : Reg) : Statement (.getml rs1) := ⟨_, _, _, rfl, rfl, rfl, rfl⟩
theorem getel (rs1 : Reg) : Statement (.getel rs1) := ⟨_, _, _, rfl, rfl, rfl, rfl⟩
theorem getlen (rs1 : Reg) : Statement (.getlen rs1) := ⟨_, _, _, rfl, rfl, rfl, rfl⟩
theorem getbits (rs1 : Reg) : Statement (.getbits rs1) := ⟨_, _, _, rfl, rfl, rfl, rfl⟩
theorem setmant (rd : Reg) : Statement (.setmant rd) := ⟨_, _, _, rfl, rfl, rfl, rfl⟩
theorem setexp (rd : Reg) : Statement (.setexp rd) := ⟨_, _, _, rfl, rfl, rfl, rfl⟩
theorem setsign (rd : Reg) (f : Bool) : Statement (.setsign rd f) := ⟨_, _, _, rfl, rfl, rfl, rfl⟩
theorem iszero (rs1 : Reg) : Statement (.iszero rs1) := ⟨_, _, _, rfl, rfl, rfl, rfl⟩
theorem isnan (rs1 : Reg) : Statement (.isnan rs1) := ⟨_, _, _, rfl, rfl, rfl, rfl⟩
theorem isinf (rs1 : Reg) : Statement (.isinf rs1) := ⟨_, _, _, rfl, rfl, rfl, rfl⟩
theorem ispos (rs1 : Reg) : Statement (.ispos rs1) := ⟨_, _, _, rfl, rfl, rfl, rfl⟩
theorem setzero (rd : Reg) (f : Bool) : Statement (.setzero rd f) := ⟨_, _, _, rfl, rfl, rfl, rfl⟩
theorem setnan (rd : Reg) (f : Bool) : Statement (.setnan rd f) := ⟨_, _, _, rfl, rfl, rfl, rfl⟩
theorem setinf (rd : Reg) (f : Bool) : Statement (.setinf rd f) := ⟨_, _, _, rfl, rfl, rfl, rfl⟩
theorem add (rd rs1 rs2 : Reg) : Statement (.add rd rs1 rs2) := ⟨_, _, _, rfl, rfl, rfl, rfl⟩
theorem sub (rd rs1 rs2 : Reg) : Statement (.sub rd rs1 rs2) := ⟨_, _, _, rfl, rfl, rfl, rfl⟩
theorem mul (rd rs1 rs2 : Reg) : Statement (.mul rd rs1 rs2) := ⟨_, _, _, rfl, rfl, rfl, rfl⟩
theorem div (rd rs1 rs2 : Reg) : Statement (.div rd rs1 rs2) := ⟨_, _, _, rfl, rfl, rfl, rfl⟩
theorem eq (rs1 rs2 : Reg) : Statement (.eq rs1 rs2) := ⟨_, _, _, rfl, rfl, rfl, rfl⟩
theorem ne (rs1 rs2 : Reg) : Statement (.ne rs1 rs2) := ⟨_, _, _, rfl, rfl, rfl, rfl⟩
theorem lt (rs1 rs2 : Reg) : Statement (.lt rs1 rs2) := ⟨_, _, _, rfl, rfl, rfl, rfl⟩
theorem le (rs1 rs2 : Reg) : Statement (.le rs1 rs2) := ⟨_, _, _, rfl, rfl, rfl, rfl⟩
theorem gt (rs1 rs2 : Reg) : Statement (.gt rs1 rs2) := ⟨_, _, _, rfl, rfl, rfl, rfl⟩
theorem ge (rs1 rs2 : Reg) : Statement (.ge rs1 rs2) := ⟨_, _, _, rfl, rfl, rfl, rfl⟩
theorem chkprec (rs1 rs2 : Reg) : Statement (.chkprec rs1 rs2) := ⟨_, _, _, rfl, rfl, rfl, rfl⟩
theorem cast (rd : Reg) : Statement (.cast rd) := ⟨_, _, _, rfl, rfl, rfl, rfl⟩
theorem copy (rd rs1 : Reg) : Statement (.copy rd rs1) := ⟨_, _, _, rfl, rfl, rfl, rfl⟩

end Sys2Proof.Laws.RowFound
end

