-- ==== Sys2Proof/Tests/Slice0.lean ====
section
/-! SUPPORT. Tests: expected results are the spec's own (95_test_vectors.md and the examples of the rules, named at each
test), and one witness of the hypotheses of every statement that has any. -/

namespace Sys2Proof.Tests

open Sys2Proof Sys2Proof.Machine

/-- A state after reset with the given instances in the first registers and the given operand ports. -/
def st (l : List Instance) (a b : Nat) (d : Bits) (v : Nat) : State :=
  { State.reset with
    regs := l.map some ++ List.replicate (16 - l.length) none
    ports := ⟨a, b, d, v⟩ }

/-- An instance from its packed bit array. -/
def ins (m e n : Nat) : Instance := ⟨m, e, unpack n (m + e + 1)⟩

/-- The packed bits register `r` holds after a result. -/
def bitsIn (x : Result) (r : Reg) : Option (Nat × Nat × Nat) :=
  match x with
  | .next t => (t.inst r).map fun n => (n.ml, n.el, pack n.bits)
  | _ => none

/-- The response after a result. -/
def resp (x : Result) : Option Response :=
  match x with
  | .next t => t.response
  | _ => none

/-- The engine of `s` with another number of registers. -/
def withNreg (s : State) (n : Nat) : State := { s with params := { s.params with nreg := n } }

/-! ## Decoding: the words of 95_test_vectors.md section 7, one per command -/

theorem test_decode_new : decode 0x10100000 = .ok (.new 1) := rfl
theorem test_decode_newv : decode 0x11100000 = .ok (.newv 1) := rfl
theorem test_decode_getval : decode 0x12020000 = .ok (.getval 2) := rfl
theorem test_decode_getml : decode 0x13010000 = .ok (.getml 1) := rfl
theorem test_decode_getel : decode 0x14010000 = .ok (.getel 1) := rfl
theorem test_decode_getlen : decode 0x15010000 = .ok (.getlen 1) := rfl
theorem test_decode_getbits : decode 0x160F0000 = .ok (.getbits 15) := rfl
theorem test_decode_setmant : decode 0x17000000 = .ok (.setmant 0) := rfl
theorem test_decode_setexp : decode 0x18000000 = .ok (.setexp 0) := rfl
theorem test_decode_setsign : decode 0x19100001 = .ok (.setsign 1 true) := rfl
theorem test_decode_iszero : decode 0x20000000 = .ok (.iszero 0) := rfl
theorem test_decode_isnan : decode 0x21030000 = .ok (.isnan 3) := rfl
theorem test_decode_isinf : decode 0x22020000 = .ok (.isinf 2) := rfl
theorem test_decode_ispos : decode 0x23020000 = .ok (.ispos 2) := rfl
theorem test_decode_setzero : decode 0x24000000 = .ok (.setzero 0 false) := rfl
theorem test_decode_setnan : decode 0x25700001 = .ok (.setnan 7 true) := rfl
theorem test_decode_setinf : decode 0x26F00001 = .ok (.setinf 15 true) := rfl
theorem test_decode_add : decode 0x30201000 = .ok (.add 2 0 1) := rfl
theorem test_decode_sub : decode 0x31301000 = .ok (.sub 3 0 1) := rfl
theorem test_decode_mul : decode 0x32401000 = .ok (.mul 4 0 1) := rfl
theorem test_decode_div : decode 0x33501000 = .ok (.div 5 0 1) := rfl
theorem test_decode_eq : decode 0x40033000 = .ok (.eq 3 3) := rfl
theorem test_decode_ne : decode 0x41033000 = .ok (.ne 3 3) := rfl
theorem test_decode_lt : decode 0x42001000 = .ok (.lt 0 1) := rfl
theorem test_decode_le : decode 0x43033000 = .ok (.le 3 3) := rfl
theorem test_decode_gt : decode 0x44001000 = .ok (.gt 0 1) := rfl
theorem test_decode_ge : decode 0x45030000 = .ok (.ge 3 0) := rfl
theorem test_decode_chkprec : decode 0x46010000 = .ok (.chkprec 1 0) := rfl
theorem test_decode_cast : decode 0x50100000 = .ok (.cast 1) := rfl
theorem test_decode_copy : decode 0x51100000 = .ok (.copy 1 0) := rfl

/-- The unassigned opcodes of section 7's illegal words. -/
theorem test_reject_unassigned :
    ∀ w ∈ [0x00000000#32, 0xFFFFFFFF#32, 0x34201000#32, 0x1A000000#32, 0x27000000#32, 0x47000000#32, 0x52000000#32],
      decode w = .error .unassignedOpcode := by
  simp only [List.forall_mem_cons]; exact ⟨rfl, rfl, rfl, rfl, rfl, rfl, rfl, by simp⟩

/-- The nonzero must-be-zero fields of section 7's illegal words. -/
theorem test_reject_reserved :
    ∀ w ∈ [0x10010000#32, 0x16000001#32, 0x16100000#32, 0x30201800#32, 0x30201001#32, 0x40101000#32, 0x51101000#32,
      0x19100002#32], decode w = .error .reservedNotZero := by
  simp only [List.forall_mem_cons]; exact ⟨rfl, rfl, rfl, rfl, rfl, rfl, rfl, rfl, by simp⟩

/-- The opcode numbers of 30_encoding.md R62 are pairwise different, and there are 30. -/
theorem test_opcodes_distinct : (opcodeMap.map (·.opcode)).Nodup ∧ opcodeMap.length = 30 := by decide

theorem test_encode_chkprec : encode (.chkprec 3 0) = 0x46030000 := rfl
theorem test_tableWord : decodeTableWord 32 0x30201000 = some (.add 2 0 1) := rfl
theorem test_tableWord_refused : decodeTableWord 32 0x30201800 = none := rfl

/-! ## Well-formedness: a register number the engine does not have, in each field (30_encoding.md R64, check 3) -/

def eightRegs : Params := { Params.default with nreg := 8 }

theorem test_ill_formed_rd : Instr.wellFormed eightRegs (.add 8 0 0) = false := by decide
theorem test_ill_formed_rs1 : Instr.wellFormed eightRegs (.getbits 9) = false := by decide
theorem test_ill_formed_rs2 : Instr.wellFormed eightRegs (.eq 0 15) = false := by decide
theorem test_well_formed : Instr.wellFormed eightRegs (.add 7 7 7) = true := by decide
/-- `0x16090000` with `NREG = 8` (section 7). -/
theorem test_ill_formed_is_illegal :
    resp (exec (.getbits 9) (withNreg (st [] 0 0 [] 0) 8)) = some (.error .illegalCommand) := by decide
theorem test_params_legal : Params.default.legal = true ∧ eightRegs.legal = true ∧
    Params.legal { Params.default with nreg := 17 } = false ∧ Params.legal { Params.default with cap := some 2 } = false ∧
    Params.legal { Params.default with hostM := 0 } = false ∧ Params.legal { Params.default with hostE := 0 } = false := by
  decide

/-! ## The number format (95_test_vectors.md sections 2 and 3) -/

theorem test_decodeNum_normal : decodeNum [false, true, false, true, true, false, true] 4 2 = .fin (29 / 8) := by
  decide +kernel
theorem test_decodeNum_subnormal : decodeNum (unpack 1 7) 3 3 = .fin (1 / 32) := by decide +kernel
theorem test_encodeNum_overflow_tie : pack (encodeNum (.fin (63 / 16)) 4 2) = 0b0110000 := by decide +kernel
theorem test_encodeNum_below_midpoint : pack (encodeNum (.fin (125 / 32)) 4 2) = 0b0101111 := by decide +kernel
theorem test_encodeNum_underflow_keeps_sign : pack (encodeNum (.fin (-1 / 64)) 3 3) = 0b1000000 := by decide +kernel
theorem test_encodeNum_one_exponent_bit : pack (encodeNum (.fin (7 / 4)) 2 1) = 0b0100 := by decide +kernel

/-! ## The commands -/

/-- Section 7: `NEW n2, 0, 5` fails and leaves `N[2]` invalid. -/
theorem test_new_width_zero : resp (exec (.new 2) (st [] 0 5 [] 0)) = some (.error .configurationError) := by decide
/-- Program P1. -/
theorem test_new : bitsIn (exec (.new 0) (st [] 4 2 [] 0)) 0 = some (4, 2, 0) := by decide
/-- 40_codec.md R87: 0.1 at (10, 5). -/
theorem test_newv : bitsIn (exec (.newv 0) (st [] 10 5 [] 0x3FB999999999999A)) 0 = some (10, 5, 0x2E66) := by
  decide +kernel
/-- Section 3: a NaN with sign 1 on V gives the canonical NaN. -/
theorem test_newv_nan : bitsIn (exec (.newv 0) (st [] 3 3 [] 0xFFF0000000000001)) 0 = some (3, 3, 0b0111100) := by
  decide +kernel
/-- 40_codec.md R88. -/
theorem test_getval :
    resp (exec (.getval 0) (st [ins 4 2 0b0101101] 0 0 [] 0)) = some (.ok (.real (unpack 0x400D000000000000 64))) := by
  decide +kernel
theorem test_getml : resp (exec (.getml 0) (st [ins 4 2 0] 0 0 [] 0)) = some (.ok (.nat 4)) := by decide
theorem test_getel : resp (exec (.getel 0) (st [ins 4 2 0] 0 0 [] 0)) = some (.ok (.nat 2)) := by decide
theorem test_getlen : resp (exec (.getlen 0) (st [ins 52 11 0] 0 0 [] 0)) = some (.ok (.nat 64)) := by decide
theorem test_getbits : resp (exec (.getbits 0) (st [ins 4 2 0b0101101] 0 0 [] 0)) =
    some (.ok (.seq [false, true, false, true, true, false, true])) := by decide
/-- 40_codec.md R93. -/
theorem test_setmant :
    bitsIn (exec (.setmant 0) (st [ins 4 2 0b0100000] 0 0 [true, true, false, true] 0)) 0 = some (4, 2, 0b0101101) := by
  decide
theorem test_setmant_short :
    resp (exec (.setmant 0) (st [ins 4 2 0] 0 0 [true, true, false] 0)) = some (.error .lengthMismatch) := by decide
/-- 40_codec.md R94. -/
theorem test_setexp : bitsIn (exec (.setexp 0) (st [ins 4 2 0] 0 0 [true, false] 0)) 0 = some (4, 2, 0b0100000) := by
  decide
theorem test_setexp_long :
    resp (exec (.setexp 0) (st [ins 3 3 0] 0 0 [false, true, true, true] 0)) = some (.error .lengthMismatch) := by decide
/-- 40_codec.md R95. -/
theorem test_setsign : bitsIn (exec (.setsign 0 true) (st [ins 4 2 0b0101101] 0 0 [] 0)) 0 = some (4, 2, 0b1101101) := by
  decide
/-- 40_codec.md R96: minus zero is a zero, the smallest subnormal is not. -/
theorem test_iszero : resp (exec (.iszero 0) (st [ins 4 2 0b1000000] 0 0 [] 0)) = some (.ok (.bool true)) ∧
    resp (exec (.iszero 0) (st [ins 4 2 1] 0 0 [] 0)) = some (.ok (.bool false)) := by decide
/-- 40_codec.md R97. -/
theorem test_isnan : resp (exec (.isnan 0) (st [ins 4 2 0b1110001] 0 0 [] 0)) = some (.ok (.bool true)) ∧
    resp (exec (.isnan 0) (st [ins 4 2 0b0110000] 0 0 [] 0)) = some (.ok (.bool false)) := by decide
/-- 40_codec.md R98. -/
theorem test_isinf : resp (exec (.isinf 0) (st [ins 4 2 0b1110000] 0 0 [] 0)) = some (.ok (.bool true)) := by decide
/-- 40_codec.md R99. -/
theorem test_ispos : resp (exec (.ispos 0) (st [ins 4 2 0b1000000] 0 0 [] 0)) = some (.ok (.bool false)) := by decide
/-- Example E4. -/
theorem test_setzero : bitsIn (exec (.setzero 0 true) (st [ins 4 2 0b0101101] 0 0 [] 0)) 0 = some (4, 2, 0b1000000) := by
  decide
theorem test_setnan : bitsIn (exec (.setnan 0 false) (st [ins 4 2 0b0101101] 0 0 [] 0)) 0 = some (4, 2, 0b0111000) := by
  decide
theorem test_setinf : bitsIn (exec (.setinf 0 true) (st [ins 4 2 0b0101101] 0 0 [] 0)) 0 = some (4, 2, 0b1110000) := by
  decide
/-- Example E1, destination a source: `3 + 4 = 7` into n0. -/
theorem test_add :
    bitsIn (exec (.add 0 0 1) (st [ins 52 11 0x4008000000000000, ins 52 11 0x4010000000000000] 0 0 [] 0)) 0 =
      some (52, 11, 0x401C000000000000) := by decide +kernel
/-- Section 4: `1 + 9/8 = 17/8` is a tie and goes to 2. -/
theorem test_add_tie : bitsIn (exec (.add 2 0 1) (st [ins 3 3 0b0011000, ins 3 3 0b0011001] 0 0 [] 0)) 2 =
    some (3, 3, 0b0100000) := by decide +kernel
theorem test_sub :
    bitsIn (exec (.sub 2 0 1) (st [ins 52 11 0x4008000000000000, ins 52 11 0x4010000000000000] 0 0 [] 0)) 2 =
      some (52, 11, 0xBFF0000000000000) := by decide +kernel
/-- Section 4: `(-0) - (+0) = -0`. -/
theorem test_sub_zeros : bitsIn (exec (.sub 2 0 1) (st [ins 3 3 0b1000000, ins 3 3 0] 0 0 [] 0)) 2 =
    some (3, 3, 0b1000000) := by decide +kernel
theorem test_mul :
    bitsIn (exec (.mul 2 0 1) (st [ins 52 11 0x4008000000000000, ins 52 11 0x4010000000000000] 0 0 [] 0)) 2 =
      some (52, 11, 0x4028000000000000) := by decide +kernel
/-- Section 4: `3/2 * 1/32 = 3/64` is a tie on the subnormal grid and goes to `1/16`. -/
theorem test_mul_subnormal_tie : bitsIn (exec (.mul 2 0 1) (st [ins 3 3 0b0011100, ins 3 3 1] 0 0 [] 0)) 2 =
    some (3, 3, 0b0000010) := by decide +kernel
theorem test_div :
    bitsIn (exec (.div 2 0 1) (st [ins 52 11 0x4008000000000000, ins 52 11 0x4010000000000000] 0 0 [] 0)) 2 =
      some (52, 11, 0x3FE8000000000000) := by decide +kernel
/-- Section 4: `1 / (-0) = -Inf`. -/
theorem test_div_by_zero : bitsIn (exec (.div 2 0 1) (st [ins 3 3 0b0011000, ins 3 3 0b1000000] 0 0 [] 0)) 2 =
    some (3, 3, 0b1111000) := by decide +kernel
/-- Section 5. -/
theorem test_eq_zeros : resp (exec (.eq 0 1) (st [ins 3 3 0, ins 3 3 0b1000000] 0 0 [] 0)) = some (.ok (.bool true)) := by
  decide +kernel
theorem test_eq_shapes : resp (exec (.eq 0 1) (st [ins 5 2 0, ins 4 3 0] 0 0 [] 0)) = some (.error .precisionMismatch) := by
  decide
theorem test_ne_nan : resp (exec (.ne 0 0) (st [ins 3 3 0b0111100] 0 0 [] 0)) = some (.ok (.bool true)) := by
  decide +kernel
theorem test_lt : resp (exec (.lt 0 1) (st [ins 3 3 0b1111000, ins 3 3 0b1110111] 0 0 [] 0)) = some (.ok (.bool true)) := by
  decide +kernel
theorem test_le_nan : resp (exec (.le 0 0) (st [ins 3 3 0b0111100] 0 0 [] 0)) = some (.ok (.bool false)) := by
  decide +kernel
theorem test_gt : resp (exec (.gt 0 1) (st [ins 3 3 0b1011000, ins 3 3 0b1011100] 0 0 [] 0)) = some (.ok (.bool true)) := by
  decide +kernel
theorem test_ge : resp (exec (.ge 0 1) (st [ins 3 3 0b0011000, ins 3 3 0b0011001] 0 0 [] 0)) = some (.ok (.bool false)) := by
  decide +kernel
/-- Section 5: -1 against 1 at (3, 3), the boundary is inclusive. -/
theorem test_chkprec :
    resp (exec (.chkprec 0 1) (st [ins 3 3 0b1011000, ins 3 3 0b0011000] 16 0 [] 0)) = some (.ok (.bool true)) ∧
    resp (exec (.chkprec 0 1) (st [ins 3 3 0b1011000, ins 3 3 0b0011000] 15 0 [] 0)) = some (.ok (.bool false)) := by
  decide +kernel
/-- Section 6: 15 at (3, 3) cast to (2, 3) carries past the largest finite value. -/
theorem test_cast_overflow : bitsIn (exec (.cast 0) (st [ins 3 3 0b0110111] 2 3 [] 0)) 0 = some (2, 3, 0b011100) := by
  decide +kernel
/-- Section 6, 90_conflicts.md C3: same widths keep a NaN that is not canonical. -/
theorem test_cast_same_widths : bitsIn (exec (.cast 0) (st [ins 3 3 0b1111011] 3 3 [] 0)) 0 = some (3, 3, 0b1111011) := by
  decide +kernel
theorem test_copy : bitsIn (exec (.copy 3 0) (st [ins 3 3 0b1111011] 0 0 [] 0)) 3 = some (3, 3, 0b1111011) := by decide
theorem test_copy_invalid : resp (exec (.copy 1 9) (st [ins 3 3 0] 0 0 [] 0)) = some (.error .noInstance) := by decide

/-! ## The step -/

/-- Program P4, first line: GETBITS right after reset. -/
theorem test_step_no_instance :
    resp (step (State.reset.withFetchWord 32 0x16000000)) = some (.error .noInstance) := by decide
theorem test_step_illegal_word :
    resp (step (State.reset.withFetchWord 32 0x30201800)) = some (.error .illegalCommand) := by decide
theorem test_step_new : bitsIn (step ((st [] 4 2 [] 0).withFetchWord 32 0x10000000)) 0 = some (4, 2, 0) := by decide
theorem test_step_reset : bitsIn (step { st [ins 3 3 0] 0 0 [] 0 with inbox := [.reset] }) 0 = none := by decide

/-! ## Witnesses: for every statement with hypotheses, a state and operands that meet them all -/

/-- Registers: 0 is 29/8 at (4, 2); 1 is 1, 2 is 9/8, 3 is +Inf, 4 is a NaN, 5 is +0, all at (3, 3). -/
def ws : State :=
  st [ins 4 2 0b0101101, ins 3 3 0b0011000, ins 3 3 0b0011001, ins 3 3 0b0111000, ins 3 3 0b1111011, ins 3 3 0]
    4 2 [true, true, false, true] 0x4008000000000000

theorem witness_wf : ws.wf = true := by decide

/-- The holds-hypotheses of every command statement, at the first and the last register of an engine. -/
theorem witness_holds : ws.holds 0 (ins 4 2 0b0101101) ∧ ws.holds 1 (ins 3 3 0b0011000) ∧ ws.holds 2 (ins 3 3 0b0011001) ∧
    ws.holds 3 (ins 3 3 0b0111000) ∧ ws.holds 4 (ins 3 3 0b1111011) ∧ ws.holds 5 (ins 3 3 0) ∧
    (st (List.replicate 16 (ins 1 1 0)) 0 0 [] 0).holds 15 (ins 1 1 0) := by
  simp only [State.holds]; decide

/-- ResetLeavesNoInstance, OnlyResetInvalidates. -/
theorem witness_reset_event : ∃ s t : State, ∃ rest, s.inbox = .reset :: rest ∧ step s = .next t ∧
    s.valid 0 = true ∧ t.valid 0 = false :=
  ⟨{ ws with inbox := [.reset] }, _, _, rfl, rfl, by decide, by decide⟩

/-- StepKeepsRegisterInvariants, with a register that holds an instance afterwards. -/
theorem witness_step_invariant : ∃ s t : State, ∃ n, s.wf = true ∧ step s = .next t ∧ t.inst 0 = some n :=
  ⟨ws.withFetchWord 32 0x10000000, _, _, by decide, rfl, rfl⟩

/-- EveryStepGoesOn, StepRunsDecodedCommand, IllegalWordsExactly: a word that decodes, one that does not, one with a
register the engine lacks, and an idle engine. -/
theorem witness_commands : (∃ c rest, (ws.withFetchWord 32 0x10000000).inbox = .command c :: rest ∧ decode c.cw = .ok (.new 0)) ∧
    (∃ c rest, (ws.withFetchWord 32 0x30201800).inbox = .command c :: rest ∧ decode c.cw = .error .reservedNotZero) ∧
    (∃ c rest, ((withNreg ws 8).withFetchWord 32 0x16090000).inbox = .command c :: rest ∧
      decode c.cw = .ok (.getbits 9) ∧ Instr.wellFormed (withNreg ws 8).params (.getbits 9) = false) ∧ ws.inbox = [] :=
  ⟨⟨_, _, rfl, rfl⟩, ⟨_, _, rfl, rfl⟩, ⟨_, _, rfl, rfl, by decide⟩, rfl⟩

/-- EncodeOfDecode, ErrorPriority. -/
theorem witness_decode : decode 0x33201000 = .ok (.div 2 0 1) ∧ decode 0x1A000000 = .error .unassignedOpcode := ⟨rfl, rfl⟩

/-- ResetMeetsInvariant: legal parameters other than the defaults, at the ends of their ranges. -/
theorem witness_params : Params.legal ⟨1, some 3, 1, 1⟩ = true ∧ Params.legal ⟨16, none, 52, 11⟩ = true := by decide

/-- DecodeFollowsTheFormula: the five cases at shape (2, 2), each at the ends of its range, and both of one exponent bit. -/
theorem witness_decode_cases :
    let f := fun n => (expField (unpack n 5) 2, mantField (unpack n 5) 2 2)
    f 0 = (0, 0) ∧ f 1 = (0, 1) ∧ f 3 = (0, 3) ∧ f 12 = (3, 0) ∧ f 13 = (3, 1) ∧ f 15 = (3, 3) ∧ f 4 = (1, 0) ∧
      f 11 = (2, 3) ∧ (unpack 0 5).length = 2 + 2 + 1 := by decide

/-- EncodeFollowsTheRule: 63/16 at (4, 2), a tie that overflows. -/
theorem witness_encode : (63 / 16 : Rat) ≠ 0 ∧ IsFloorLog2 |(63 / 16 : Rat)| 1 ∧
    IsRoundedToEven (|(63 / 16 : Rat)| / (2 : Rat) ^ (max 1 (emin 2) - ((4 : Nat) : Int))) 32 := by
  have h : max 1 (emin 2) - ((4 : Nat) : Int) = -3 := by decide
  rw [h]
  have ha : |(63 / 16 : Rat)| = 63 / 16 := abs_of_pos (by norm_num)
  refine ⟨by norm_num, ?_, ?_⟩ <;> simp only [IsFloorLog2, IsRoundedToEven, ha] <;> norm_num

/-- CodecRoundTrip: a pattern that is no NaN, and a NaN that is not canonical. -/
theorem witness_round_trip : decodeNum (unpack 27 5) 2 2 ≠ .nan ∧ decodeNum (unpack 31 5) 2 2 = .nan ∧
    (unpack 27 5).length = 2 + 2 + 1 := by decide +kernel

/-- EncodeIsMonotone: both signs, and values that round to the same pattern. -/
theorem witness_monotone : (-1 / 64 : Rat) ≠ 0 ∧ (1 / 64 : Rat) ≠ 0 ∧ (-1 / 64 : Rat) ≤ 1 / 64 := by norm_num

/-- EncodeIsNearest: 31/32 at (4, 2) rounds up to 1; another value of the shape is 15/16. -/
theorem witness_nearest : finiteNum (decodeNum (encodeNum (.fin (31 / 32)) 4 2) 4 2) = some 1 ∧
    finiteNum (decodeNum (unpack 15 7) 4 2) = some (15 / 16) ∧ (unpack 15 7).length = 4 + 2 + 1 := by decide +kernel

/-- OverflowThreshold: the midpoint at (3, 3) is 31/2 and overflows, 61/4 does not; at (2, 1) it is 7/4. -/
theorem witness_threshold : decodeNum (encodeNum (.fin (31 / 2)) 3 3) 3 3 = .inf false ∧
    decodeNum (encodeNum (.fin (61 / 4)) 3 3) 3 3 = .fin 15 ∧
    decodeNum (encodeNum (.fin (7 / 4)) 2 1) 2 1 = .inf false := by decide +kernel

/-- The two cases of the width check, at the ends of their ranges: NEW, NEWV, CAST, ConfigurationErrorExactly. -/
theorem witness_widths : LegalWidths ws.params 1 1 ∧ ¬ LegalWidths ws.params 0 1 ∧ ¬ LegalWidths ws.params 1 0 ∧
    LegalWidths ⟨1, some 8, 1, 1⟩ 4 3 ∧ ¬ LegalWidths ⟨1, some 8, 1, 1⟩ 5 3 := by
  simp [LegalWidths, ws, st, State.reset, Params.default]

/-- NewConstructsPositiveZero, NewvEncodesTheHostValue, ArithmeticRoundsTheExactResult, CopyIsIndependent: a destination,
at the ends of the range. -/
theorem witness_destination : (0 : Reg).val < ws.params.nreg ∧ (15 : Reg).val < ws.params.nreg := by decide

/-- NewConstructsPositiveZero, NewvEncodesTheHostValue: the ports of `ws` carry legal widths. -/
theorem witness_port_widths : LegalWidths ws.params ws.ports.a ws.ports.b ∧
    ¬ LegalWidths (ws.onPorts 0 2 [] 0).params (ws.onPorts 0 2 [] 0).ports.a (ws.onPorts 0 2 [] 0).ports.b := by
  simp [LegalWidths, ws, st, State.reset, Params.default, State.onPorts]

/-- GetvalReturnsTheDecodedValue: a register that holds a NaN. -/
theorem witness_nan_register : (ins 3 3 0b1111011).val = .nan := by decide +kernel

/-- SetmantReplacesTheMantissa, SetexpReplacesTheExponent, LengthMismatchExactly: a sequence as long as the field, one
too short and an empty one. -/
theorem witness_field_lengths : ws.ports.d.length = (ins 4 2 0b0101101).ml ∧ ws.ports.d.length ≠ (ins 4 2 0b0101101).el ∧
    (ws.onPorts 0 0 [true, false] 0).ports.d.length = (ins 4 2 0b0101101).el ∧
    (ws.onPorts 0 0 [] 0).ports.d.length ≠ (ins 4 2 0b0101101).ml := by decide

/-- DirectBitSetting. -/
theorem witness_direct_bits : ∃ s : State, s.wf = true ∧ (3 : Reg).val < s.params.nreg ∧ LegalWidths s.params 4 2 ∧
    s.inbox = [.command ⟨encode (.new 3), ⟨4, 2, [], 0⟩⟩,
      .command ⟨encode (.setexp 3), ⟨0, 0, [true, false], 0⟩⟩,
      .command ⟨encode (.setmant 3), ⟨0, 0, [true, true, false, true], 0⟩⟩,
      .command ⟨encode (.setsign 3 false), ⟨0, 0, [], 0⟩⟩,
      .command ⟨encode (.getbits 3), ⟨0, 0, [], 0⟩⟩] :=
  ⟨{ ws with inbox := _ }, by decide, by decide, by simp [LegalWidths, ws, st, State.reset, Params.default], rfl⟩

/-- HostShapeCrossesUnchanged: 3 on the port and in a register of the host's shape. -/
theorem witness_host_shape : ∃ s : State, s.wf = true ∧ (0 : Reg).val < s.params.nreg ∧ s.ports.a = s.params.hostM ∧
    s.ports.b = s.params.hostE ∧ LegalWidths s.params s.ports.a s.ports.b ∧ fromHost s.params s.ports.v ≠ .nan ∧
    s.inst 0 = some (ins 52 11 0x4008000000000000) ∧ (ins 52 11 0x4008000000000000).ml = s.params.hostM ∧
    (ins 52 11 0x4008000000000000).el = s.params.hostE ∧ (ins 52 11 0x4008000000000000).val ≠ .nan :=
  ⟨st [ins 52 11 0x4008000000000000] 52 11 [] 0x4008000000000000, by decide, by decide, rfl, rfl,
    by simp [LegalWidths, st, State.reset, Params.default], by decide +kernel, rfl, rfl, rfl, by decide +kernel⟩

/-- ArithmeticRoundsTheExactResult, RelationsCompareExactValues, ChkprecComparesWithinUlps, PrecisionMismatchExactly: one
shape (registers 1, 2) and two (registers 0, 1). -/
theorem witness_shapes : ((ins 3 3 0b0011000).ml = (ins 3 3 0b0011001).ml ∧ (ins 3 3 0b0011000).el = (ins 3 3 0b0011001).el) ∧
    ¬ ((ins 4 2 0b0101101).ml = (ins 3 3 0b0011000).ml ∧ (ins 4 2 0b0101101).el = (ins 3 3 0b0011000).el) := by decide

/-- ArithmeticNaNIsCanonical: 1 + NaN into register 5. -/
theorem witness_nan_result : ∃ t : State, ∃ n, exec (.add 5 1 4) ws = .next t ∧ t.response = some (.ok .none) ∧
    t.inst 5 = some n ∧ n.isNaN = true :=
  ⟨_, _, rfl, rfl, rfl, by decide +kernel⟩

/-- SelfDifferenceAndQuotient: a finite nonzero value, an infinity, a zero. -/
theorem witness_self : finiteNum (ins 3 3 0b0011001).val = some (9 / 8) ∧ (ins 3 3 0b0011001).val = .fin (9 / 8) ∧
    finiteNum (ins 3 3 0b0111000).val = none ∧ (ins 3 3 0).val = .zero false := by decide +kernel

/-- EqualityByClassAndBits: the two zeros of a shape, and two different values. -/
theorem witness_equality : decodeNum (unpack 0 7) 3 3 = .zero false ∧ decodeNum (unpack 64 7) 3 3 = .zero true ∧
    decodeNum (unpack 1 7) 3 3 = .fin (1 / 32) ∧ (unpack 64 7).length = 3 + 3 + 1 := by decide +kernel

/-- ChkprecComparesWithinUlps: an infinity, a NaN, and the steps of 1 and of 0 at (3, 3). -/
theorem witness_chkprec : (ins 3 3 0b0111000).val = .inf false ∧ (ins 3 3 0b1111011).val = .nan ∧
    finiteNum (ins 3 3 0b0011000).val = some 1 ∧ finiteNum (ins 3 3 0).val = some 0 ∧
    IsUlp 1 3 3 (1 / 8) ∧ IsUlp 0 3 3 (1 / 32) := by
  refine ⟨by decide +kernel, by decide +kernel, by decide +kernel, by decide +kernel, .inr ⟨by norm_num, 0, ?_, ?_⟩,
    .inl ⟨rfl, ?_⟩⟩
  · norm_num [IsFloorLog2]
  · have h : max 0 (emin 3) - ((3 : Nat) : Int) = -3 := by decide
    rw [h]; norm_num
  · have h : emin 3 - ((3 : Nat) : Int) = -5 := by decide
    rw [h]; norm_num

/-- CastReencodesInPlace: register 0 has the widths on the ports of `ws`; register 1 has others. -/
theorem witness_cast : (ws.ports.a = (ins 4 2 0b0101101).ml ∧ ws.ports.b = (ins 4 2 0b0101101).el) ∧
    ¬ (ws.ports.a = (ins 3 3 0b0011000).ml ∧ ws.ports.b = (ins 3 3 0b0011000).el) := by decide

/-- CastKeepsSpecialsAndWidensExactly, CastIsIdempotent: a cast of the NaN of register 4, and a cast to wider widths. -/
theorem witness_cast_results : (∃ t : State, ∃ k, exec (.cast 4) ws = .next t ∧ t.response = some (.ok .none) ∧
      t.inst 4 = some k ∧ (ins 3 3 0b1111011).val = .nan) ∧
    (∃ t : State, ∃ k, exec (.cast 1) (ws.onPorts 8 4 [] 0) = .next t ∧ t.response = some (.ok .none) ∧
      t.inst 1 = some k ∧ (ins 3 3 0b0011000).ml ≤ 8 ∧ (ins 3 3 0b0011000).el ≤ 4) :=
  ⟨⟨_, _, rfl, rfl, rfl, by decide +kernel⟩, ⟨_, _, rfl, rfl, rfl, by decide, by decide⟩⟩

/-- CopyIsIndependent, CastDownAndUpRecovers: two registers that hold the same instance, 9/8 at (3, 3), through (1, 2)
with the smallest tolerance allowed. -/
theorem witness_recovery : ∃ s : State, s.wf = true ∧ (0 : Reg) ≠ 1 ∧ s.holds 0 (ins 3 3 0b0011001) ∧
    s.holds 1 (ins 3 3 0b0011001) ∧ (ins 3 3 0b0011001).val = .fin (9 / 8) ∧ IsFloorLog2 |(9 / 8 : Rat)| 0 ∧
    emin 3 ≤ 0 ∧ emin 2 ≤ 0 ∧ decodeNum (encodeNum (.fin (9 / 8)) 1 2) 1 2 = .fin 1 ∧ 2 ^ (3 - 1 - 1) ≤ 2 := by
  refine ⟨st [ins 3 3 0b0011001, ins 3 3 0b0011001] 0 0 [] 0, by decide, by decide, ?_, ?_, by decide +kernel, ?_,
    by decide, by decide, by decide +kernel, by decide⟩
  · simp only [State.holds]; decide
  · simp only [State.holds]; decide
  · have ha : |(9 / 8 : Rat)| = 9 / 8 := abs_of_pos (by norm_num)
    simp only [IsFloorLog2, ha]; norm_num

/-- The five Exactly statements, ErrorsChangeNothing, ErrorPriority: a command that ends with each error. -/
theorem witness_errors : resp (exec (.new 0) (ws.onPorts 0 0 [] 0)) = some (.error .configurationError) ∧
    resp (exec (.setexp 0) ws) = some (.error .lengthMismatch) ∧
    resp (exec (.chkprec 0 1) ws) = some (.error .precisionMismatch) ∧
    resp (exec (.getml 9) ws) = some (.error .noInstance) ∧
    resp (exec (.new 8) (withNreg ws 8)) = some (.error .illegalCommand) ∧
    Instr.wellFormed (withNreg ws 8).params (.new 8) = false := by decide

/-- CommandsWriteOneRegister, ReadOnlyCommandsAreIdempotent, CommandsKeepInstancesValid, PayloadKinds: a command that
writes and one that does not. -/
theorem witness_frames : (∃ t : State, exec (.copy 7 0) ws = .next t ∧ Instr.writes (.copy 7 0) = some 7 ∧
      t.response = some (.ok .none) ∧ ws.valid 7 = false ∧ ws.valid 0 = true) ∧
    (∃ t : State, exec (.getbits 0) ws = .next t ∧ Instr.writes (.getbits 0) = none ∧
      t.response = some (.ok (.seq [false, true, false, true, true, false, true]))) :=
  ⟨⟨_, rfl, rfl, rfl, rfl, rfl⟩, ⟨_, rfl, rfl, rfl⟩⟩

/-- CommandsSeeOnlyRegistersAndTheirPorts: another response, another inbox, and other values on every port NEW does not use. -/
theorem witness_ports_agree : ∃ s' : State, s'.params = ws.params ∧ s'.regs = ws.regs ∧
    portsAgree (.new 0) ws.params ws.ports s'.ports ∧ s'.ports ≠ ws.ports ∧ s'.inbox ≠ ws.inbox ∧ s'.response ≠ ws.response :=
  ⟨{ ws with ports := ⟨4, 2, [], 7⟩, inbox := [.reset], response := some (.ok .none) }, rfl, rfl, ⟨rfl, rfl⟩, by decide,
    by decide, by decide⟩

/-- SubIsAddOfTheNegation: two registers of one shape and a destination. -/
theorem witness_negation : (1 : Reg) ≠ 2 ∧ (5 : Reg).val < ws.params.nreg ∧
    resp (exec (.sub 5 1 2) ws) = some (.ok .none) := by decide +kernel

end Sys2Proof.Tests
end

/-! The invariant of the registers (10_state.md R21), what a command leaves unchanged (R25, R27), validity (R26) and
reset (R33). A read-only command is described by `exec_effect`; a command that writes a register has a sharper
inversion lemma here, `exec_writeEffect`, which says that what it writes is well formed. -/

namespace Sys2Proof.Machine

variable {s t : State} {i : Instr} {p : Params} {n : Instance}

/-! ### Well-formed instances -/

/-- Replacing a field that lies inside the array keeps the length. -/
theorem replaceField_length {b x : Bits} {start : Nat} (h : start + x.length ≤ b.length) :
    (replaceField b start x).length = b.length := by
  simp only [replaceField, List.length_append, List.length_take, List.length_drop]
  omega

/-- `instanceOf` at legal widths is well formed. -/
theorem instanceOf_wf (v : Val) {m e : Nat} (h : LegalWidths p m e) : (instanceOf v m e).wf p = true :=
  (instance_wf_iff p _).2 ⟨h, encodeNum_length v e h.1⟩

/-- Other bits of the right number keep R21. -/
theorem wf_withBits {b : Bits} (hn : n.wf p = true) (hb : b.length = n.ml + n.el + 1) :
    Instance.wf p { n with bits := b } = true :=
  (instance_wf_iff p _).2 ⟨((instance_wf_iff p n).1 hn).1, hb⟩

theorem wf_withField {x : Bits} {start : Nat} (hn : n.wf p = true) (h : start + x.length ≤ n.ml + n.el + 1) :
    Instance.wf p { n with bits := replaceField n.bits start x } = true := by
  have hl : n.bits.length = n.ml + n.el + 1 := ((instance_wf_iff p n).1 hn).2
  exact wf_withBits hn ((replaceField_length (hl ▸ h)).trans hl)

theorem wf_withNaN (f : Bool) (hn : n.wf p = true) :
    Instance.wf p { n with bits := nanBits f n.ml n.el } = true := by
  obtain ⟨⟨hml, -, -⟩, -⟩ := (instance_wf_iff p n).1 hn
  exact wf_withBits hn (nanBits_length f n.el hml)

/-! ### Validity of registers -/

theorem valid_iff {r : Reg} : s.valid r = true ↔ ∃ n, s.inst r = some n := Option.isSome_iff_exists

/-- Writing a register takes no `valid` bit to 0. -/
theorem valid_setInst {r : Reg} (rd : Reg) (n : Instance) (h : s.valid r = true) :
    (s.setInst rd n).valid r = true := by
  obtain ⟨k, hk⟩ := valid_iff.1 h
  by_cases hr : rd = r
  · subst hr
    exact valid_iff.2 ⟨n, setInst_inst_same s rd n (inst_lt_length hk)⟩
  · exact valid_iff.2 ⟨k, (setInst_inst_ne s rd r n hr).trans hk⟩

/-! ### The frame of a command -/

theorem exec_frame (h : exec i s = .next t) :
    t.params = s.params ∧ t.ports = s.ports ∧ t.inbox = s.inbox ∧ t.regs.length = s.regs.length := by
  obtain ⟨e, rfl⟩ | ⟨q, rfl⟩ | ⟨rd, n, -, rfl⟩ := exec_effect h
  · exact ⟨rfl, rfl, rfl, rfl⟩
  · exact ⟨rfl, rfl, rfl, rfl⟩
  · exact ⟨rfl, rfl, rfl, List.length_set⟩

theorem exec_inst_of_not_written {r : Reg} (h : exec i s = .next t) (hw : i.writes ≠ some r) :
    t.inst r = s.inst r := by
  obtain ⟨e, rfl⟩ | ⟨q, rfl⟩ | ⟨rd, n, hrd, rfl⟩ := exec_effect h
  · rfl
  · rfl
  · exact setInst_inst_ne s rd r n fun hr => hw (hr ▸ hrd)

theorem exec_regs_of_writes_none (h : exec i s = .next t) (hw : i.writes = none) : t.regs = s.regs := by
  obtain ⟨e, rfl⟩ | ⟨q, rfl⟩ | ⟨rd, n, hrd, rfl⟩ := exec_effect h
  · rfl
  · rfl
  · rw [hw] at hrd; cases hrd

theorem exec_keeps_valid {r : Reg} (h : exec i s = .next t) (hr : s.valid r = true) : t.valid r = true := by
  obtain ⟨e, rfl⟩ | ⟨q, rfl⟩ | ⟨rd, n, -, rfl⟩ := exec_effect h
  · exact hr
  · exact hr
  · exact valid_setInst rd n hr

/-! ### Check 3 of 30_encoding.md R64 -/

/-- A register number the engine does not have is answered with IllegalCommand, whatever the command. -/
theorem exec_of_not_wellFormed (h : i.wellFormed s.params = false) :
    exec i s = .next (s.raise .illegalCommand) := by
  have hu : ¬ i.uses.all s.hasReg = true := Bool.eq_false_iff.1 h
  cases i with
  | new rd | newv rd =>
    have hrd : ¬ s.hasReg rd = true := by simpa [Instr.uses] using hu
    exact if_neg hrd
  | _ => exact if_neg hu

/-- The register a command writes is the first its format names (30_encoding.md R60). -/
theorem mem_uses_of_writes {rd : Reg} (hw : i.writes = some rd) : rd ∈ i.uses := by
  cases i <;> cases hw <;> exact List.mem_cons_self

theorem lt_nreg_of_writes {rd : Reg} (hw : i.writes = some rd) (h : i.wellFormed p = true) : rd.val < p.nreg :=
  of_decide_eq_true (List.all_eq_true.1 h rd (mem_uses_of_writes hw))

/-- A command that returned OK named only registers the engine has. -/
theorem wellFormed_of_ok {q : Payload} (h : exec i s = .next t) (hq : t.response = some (.ok q)) :
    i.wellFormed s.params = true := by
  by_contra hf
  rw [exec_of_not_wellFormed (by simpa using hf)] at h
  rw [← next_inj h] at hq
  cases hq

/-! ### What a command writes -/

/-- What a command that writes `rd` can do to a well-formed state: raise an error, leave the register as it is (CAST
to the current widths), or store what meets R21. -/
def WriteEffect (rd : Reg) (s t : State) : Prop :=
  (∃ e, t = s.raise e) ∨ (s.valid rd = true ∧ t = s.respond .none) ∨
    (∃ n, n.wf s.params = true ∧ t = (s.setInst rd n).respond .none)

theorem writeEffect_of_construct {rd : Reg} (hn : LegalWidths s.params s.ports.a s.ports.b → n.wf s.params = true)
    (h : withDest s rd (withWidths s (writeOk s rd n)) = .next t) : WriteEffect rd s t := by
  obtain ⟨-, h⟩ | ⟨-, ht⟩ := withDest_next h
  · obtain ⟨hw, h⟩ | ⟨-, ht⟩ := withWidths_next h
    · exact .inr (.inr ⟨n, hn ((widthsOk_iff _ _ _).1 hw), (next_inj h).symm⟩)
    · exact .inl ⟨_, ht⟩
  · exact .inl ⟨_, ht⟩

theorem writeEffect_of_rewrite {used : List Reg} {rd r : Reg} {f : Instance → Instance} (hs : s.wf = true)
    (hf : ∀ n, n.wf s.params = true → (f n).wf s.params = true)
    (h : withSource s used r (fun n => writeOk s rd (f n)) = .next t) : WriteEffect rd s t := by
  obtain ⟨n, hn, ht⟩ | he := rewrite_next h
  · exact .inr (.inr ⟨f n, hf n (wf_inst hs hn), ht⟩)
  · exact .inl he

theorem writeEffect_of_setField {rd : Reg} {start width : Instance → Nat} (hs : s.wf = true)
    (hfit : ∀ n, start n + width n ≤ n.ml + n.el + 1)
    (h : withSource s [rd] rd (fun n => setField s rd n (start n) (width n)) = .next t) : WriteEffect rd s t := by
  obtain ⟨-, n, hn, hb⟩ | ⟨-, -, ht⟩ | ⟨-, ht⟩ := withSource_next h
  · obtain ⟨hd, ht⟩ | ⟨-, ht⟩ := setField_next hb
    · exact .inr (.inr ⟨_, wf_withField (wf_inst hs hn) (hd ▸ hfit n), ht⟩)
    · exact .inl ⟨_, ht⟩
  · exact .inl ⟨_, ht⟩
  · exact .inl ⟨_, ht⟩

theorem writeEffect_of_binop {op : Val → Val → Val} {rd rs1 rs2 : Reg} (hs : s.wf = true)
    (h : binop op rd rs1 rs2 s = .next t) : WriteEffect rd s t := by
  obtain ⟨x, y, hx, -, -, ht⟩ | he := binop_next h
  · have hshape : LegalWidths s.params x.ml x.el := ((instance_wf_iff _ x).1 (wf_inst hs hx)).1
    exact .inr (.inr ⟨_, instanceOf_wf _ hshape, ht⟩)
  · exact .inl he

theorem writeEffect_of_cast {rd : Reg} (h : execCast rd s = .next t) : WriteEffect rd s t := by
  obtain ⟨-, n, hn, hb⟩ | ⟨-, -, ht⟩ | ⟨-, ht⟩ := withSource_next h
  · obtain ⟨hw, hb⟩ | ⟨-, ht⟩ := withWidths_next hb
    · split at hb
      · exact .inr (.inl ⟨valid_iff.2 ⟨n, hn⟩, (next_inj hb).symm⟩)
      · exact .inr (.inr ⟨_, instanceOf_wf _ ((widthsOk_iff _ _ _).1 hw), (next_inj hb).symm⟩)
    · exact .inl ⟨_, ht⟩
  · exact .inl ⟨_, ht⟩
  · exact .inl ⟨_, ht⟩

/-- The inversion lemma of `exec` for the commands that write a register. -/
theorem exec_writeEffect {rd : Reg} (hs : s.wf = true) (hw : i.writes = some rd) (h : exec i s = .next t) :
    WriteEffect rd s t := by
  cases i with
  | new _ =>
    cases hw
    exact writeEffect_of_construct (fun hl => (instance_wf_iff _ _).2 ⟨hl, rep_length _ _⟩) h
  | newv _ => cases hw; exact writeEffect_of_construct (instanceOf_wf _) h
  | setmant _ => cases hw; exact writeEffect_of_setField hs (fun n => by omega) h
  | setexp _ => cases hw; exact writeEffect_of_setField hs (fun n => by omega) h
  | setsign _ _ => cases hw; exact writeEffect_of_rewrite hs (fun n hn => wf_withField hn (by simp)) h
  | setzero _ _ => cases hw; exact writeEffect_of_rewrite hs (fun n hn => wf_withBits hn (by simp)) h
  | setnan _ f => cases hw; exact writeEffect_of_rewrite hs (fun n hn => wf_withNaN f hn) h
  | setinf _ _ => cases hw; exact writeEffect_of_rewrite hs (fun n hn => wf_withBits hn (by simp)) h
  | add _ _ _ | sub _ _ _ | mul _ _ _ | div _ _ _ => cases hw; exact writeEffect_of_binop hs h
  | cast _ => cases hw; exact writeEffect_of_cast h
  | copy _ _ => cases hw; exact writeEffect_of_rewrite (f := id) hs (fun _ hn => hn) h
  | _ => cases hw

/-- On success the register a command writes is valid. -/
theorem exec_ok_valid {rd : Reg} {q : Payload} (hs : s.wf = true) (hw : i.writes = some rd)
    (h : exec i s = .next t) (hq : t.response = some (.ok q)) : t.valid rd = true := by
  have hrd : rd.val < s.params.nreg := lt_nreg_of_writes hw (wellFormed_of_ok h hq)
  obtain ⟨-, hlen, -⟩ := (wf_iff s).1 hs
  obtain ⟨e, rfl⟩ | ⟨hv, rfl⟩ | ⟨n, -, rfl⟩ := exec_writeEffect hs hw h
  · cases hq
  · exact hv
  · exact valid_iff.2 ⟨n, setInst_inst_same s rd n (hlen ▸ hrd)⟩

/-! ### The invariant -/

theorem exec_keeps_wf (hs : s.wf = true) (h : exec i s = .next t) : t.wf = true := by
  cases hw : i.writes with
  | none =>
    obtain ⟨hp, -, -, -⟩ := exec_frame h
    exact (wf_congr hp (exec_regs_of_writes_none h hw)).trans hs
  | some rd =>
    obtain ⟨e, rfl⟩ | ⟨-, rfl⟩ | ⟨n, hn, rfl⟩ := exec_writeEffect hs hw h
    · exact hs
    · exact hs
    · exact wf_setInst rd n hs hn

/-- A register file without instances meets the invariant for every legal choice of the parameters. -/
theorem wf_of_noInstances (hp : s.params.legal = true) (hr : s.regs = noInstances s.params) : s.wf = true := by
  simp [wf_iff, hp, hr, noInstances]

/-- What a step can do: nothing presented, the reset input, a command that runs, or a word that spells none. -/
theorem step_cases (h : step s = .next t) :
    (s.inbox = [] ∧ t = s.idle) ∨
    (∃ rest, s.inbox = .reset :: rest ∧ t = State.resetEngine { s with inbox := rest }) ∨
    (∃ c rest i, s.inbox = .command c :: rest ∧ decode c.cw = .ok i ∧
      exec i { s with inbox := rest, ports := c.ports } = .next t) ∨
    (∃ c rest e, s.inbox = .command c :: rest ∧ decode c.cw = .error e ∧
      t = State.raise { s with inbox := rest, ports := c.ports } .illegalCommand) := by
  unfold step at h
  split at h
  · next hi => exact .inl ⟨hi, (next_inj h).symm⟩
  · next ev rest hi =>
    cases ev with
    | reset => exact .inr (.inl ⟨rest, hi, (next_inj h).symm⟩)
    | command c =>
      simp only [takeEvent, runCommand] at h
      split at h
      · next i hd => exact .inr (.inr (.inl ⟨c, rest, i, hi, hd, h⟩))
      · next e hd => exact .inr (.inr (.inr ⟨c, rest, e, hi, hd, (next_inj h).symm⟩))

theorem step_of_reset {rest : List HostEvent} (h : s.inbox = .reset :: rest) :
    step s = .next (State.resetEngine { s with inbox := rest }) := by
  simp [step, h, takeEvent]

theorem step_keeps_wf (hs : s.wf = true) (h : step s = .next t) : t.wf = true := by
  obtain ⟨-, rfl⟩ | ⟨rest, -, rfl⟩ | ⟨c, rest, i, -, -, hex⟩ | ⟨c, rest, e, -, -, rfl⟩ := step_cases h
  · exact hs
  · exact wf_of_noInstances ((wf_iff s).1 hs).1 rfl
  · exact exec_keeps_wf (s := { s with inbox := rest, ports := c.ports }) hs hex
  · exact hs

/-! ### The statements -/

/-- Settles O3: every step keeps `State.wf`, and a valid register of a well-formed state meets R21. -/
theorem stepKeepsRegisterInvariants : Obligations.StepKeepsRegisterInvariants := by
  intro s t hs h
  have ht : t.wf = true := step_keeps_wf hs h
  refine ⟨ht, fun r n hn => ?_⟩
  obtain ⟨⟨hml, hel, hcap⟩, hlen⟩ := (instance_wf_iff _ n).1 (wf_inst ht hn)
  exact ⟨hml, hel, hlen, hcap⟩

/-- Settles O54, from the inversion lemma of `exec`. -/
theorem commandsWriteOneRegister : Obligations.CommandsWriteOneRegister := by
  intro i s t h
  obtain ⟨hparams, hports, hinbox, hlen⟩ := exec_frame h
  exact ⟨fun _ => exec_inst_of_not_written h, exec_regs_of_writes_none h, hlen, hparams, hports, hinbox⟩

/-- Settles O56: a write takes no `valid` bit to 0, and a command that returned OK wrote a register the engine has. -/
theorem commandsKeepInstancesValid : Obligations.CommandsKeepInstancesValid := by
  intro i s t hs h
  exact ⟨fun _ => exec_keeps_valid h, fun _ _ hw hq => exec_ok_valid hs hw h hq⟩

/-- Settles O1: `State.reset` and the state after the reset input both hold `noInstances`. -/
theorem resetLeavesNoInstance : Obligations.ResetLeavesNoInstance := by
  refine ⟨resetEngine_inst State.reset, by simp [State.reset, noInstances], fun s rest h => ?_⟩
  exact ⟨_, step_of_reset h, resetEngine_inst _, by simp [noInstances], rfl⟩

/-- Settles O2: a register file without instances is well formed for every legal choice of the parameters. -/
theorem resetMeetsInvariant : Obligations.ResetMeetsInvariant :=
  ⟨wf_of_noInstances (by decide) rfl, fun _ hp => wf_of_noInstances hp rfl⟩

end Sys2Proof.Machine

/-! Idempotence of the commands that write no register (20_memory.md R44). No command reads the response the step before
it left, and a command that writes no register leaves nothing else behind. -/

namespace Sys2Proof.Machine

/-- No command reads the last response, and every command replaces it. -/
theorem exec_withResponse (i : Instr) (s : State) (q : Option Response) :
    exec i { s with response := q } = exec i s := by
  cases i <;> rfl

/-- Settles O55: by the inversion lemma of `exec`, the second run starts in the first state up to its response. -/
theorem readOnlyCommandsAreIdempotent : Obligations.ReadOnlyCommandsAreIdempotent := by
  intro i s t hw h
  obtain ⟨e, rfl⟩ | ⟨p, rfl⟩ | ⟨rd, n, hrd, -⟩ := exec_effect h
  · exact (exec_withResponse i s _).trans h
  · exact (exec_withResponse i s _).trans h
  · rw [hw] at hrd
    cases hrd

end Sys2Proof.Machine

/-! The command decoder and encoder (30_encoding.md R59 to R65). A word is its opcode, its fields and its reserved digits
(`eq_assemble_iff`); mask and match pick the words that a row's format assembles (`and_mask_eq_matchWord_iff`); so the
decoder accepts exactly the encoder's words. -/

namespace Sys2Proof

/-! ### A command word by its opcode, its fields and its reserved digits -/

/-- The digits of a conjunction are the conjunctions of the digits. -/
theorem slice_and (n k hi lo : Nat) : slice (n &&& k) hi lo = slice n hi lo &&& slice k hi lo := by
  simp only [slice, Nat.and_div_two_pow, Nat.and_mod_two_pow]

/-- A mask that is all ones over a field keeps the field. -/
theorem slice_and_ones (n hi lo : Nat) : slice n hi lo &&& (2 ^ (hi - lo + 1) - 1) = slice n hi lo :=
  Nat.and_two_pow_sub_one_of_lt_two_pow (Nat.mod_lt _ (Nat.two_pow_pos _))

/-- The fields of a word, read as numbers. -/
theorem fieldsOf_eq_iff (cw : CmdWord) (x : Fields) : fieldsOf cw = x ↔
    slice cw.toNat 23 20 = x.rd.val ∧ slice cw.toNat 19 16 = x.rs1.val ∧ slice cw.toNat 15 12 = x.rs2.val ∧
      slice cw.toNat 0 0 = x.f.toNat := by
  obtain ⟨rd, rs1, rs2, f⟩ := x
  have hflag : (slice cw.toNat 0 0 == 1) = f ↔ slice cw.toNat 0 0 = f.toNat := by
    obtain h | h : slice cw.toNat 0 0 = 0 ∨ slice cw.toNat 0 0 = 1 := Nat.mod_two_eq_zero_or_one _
    · cases f <;> simp [h]
    · cases f <;> simp [h]
  simp only [fieldsOf, Fields.mk.injEq, Fin.ext_iff, Fin.ofNat, hflag]
  simp [slice]

/-- A word is assembled from its opcode and its fields, when its reserved digits are zero. -/
theorem eq_assemble_iff (cw : CmdWord) {o : Nat} (x : Fields) (ho : o < 256) :
    cw = assemble o x ↔ opcodeOf cw = o ∧ fieldsOf cw = x ∧ slice cw.toNat 11 1 = 0 := by
  have hsum := assemble_toNat o x ho
  have := Bool.toNat_le x.f
  constructor
  · rintro rfl
    refine ⟨opcodeOf_assemble o x ho, fieldsOf_assemble o x ho, ?_⟩
    simp only [slice, hsum]
    omega
  · rintro ⟨hop, hx, hz⟩
    obtain ⟨hrd, hrs1, hrs2, hf⟩ := (fieldsOf_eq_iff cw x).1 hx
    have := cw.isLt
    simp only [opcodeOf, slice] at hop hz hrd hrs1 hrs2 hf
    exact BitVec.eq_of_toNat_eq (by omega)

/-! ### Masking a word -/

/-- Conjunction field by field. -/
def Fields.and (x y : Fields) : Fields :=
  { rd := x.rd &&& y.rd, rs1 := x.rs1 &&& y.rs1, rs2 := x.rs2 &&& y.rs2, f := x.f && y.f }

theorem fieldsOf_and (a b : CmdWord) : fieldsOf (a &&& b) = (fieldsOf a).and (fieldsOf b) := by
  obtain ⟨hard, hars1, hars2, haf⟩ := (fieldsOf_eq_iff a _).1 rfl
  obtain ⟨hbrd, hbrs1, hbrs2, hbf⟩ := (fieldsOf_eq_iff b _).1 rfl
  have hflag : ∀ f g : Bool, f.toNat &&& g.toNat = (f && g).toNat := by decide
  simp [fieldsOf_eq_iff, slice_and, Fields.and, *]

/-- The fields a format uses (30_encoding.md R60), the others zero. -/
def Format.keep : Format → Fields → Fields
  | .D, x => fieldsD x.rd
  | .DF, x => fieldsDF x.rd x.f
  | .S, x => fieldsS x.rs1
  | .DS, x => fieldsDS x.rd x.rs1
  | .DSS, x => fieldsDSS x.rd x.rs1 x.rs2
  | .SS, x => fieldsSS x.rs1 x.rs2

@[simp] theorem Format.keep_keep (fmt : Format) (x : Fields) : fmt.keep (fmt.keep x) = fmt.keep x := by
  cases fmt <;> rfl

theorem opcodeOf_and_mask (fmt : Format) (cw : CmdWord) : opcodeOf (cw &&& fmt.mask) = opcodeOf cw := by
  have hmask : slice fmt.mask.toNat 31 24 = 2 ^ (31 - 24 + 1) - 1 := by cases fmt <;> rfl
  rw [opcodeOf, BitVec.toNat_and, slice_and, hmask, slice_and_ones, opcodeOf]

theorem reserved_and_mask (fmt : Format) (cw : CmdWord) :
    slice (cw &&& fmt.mask).toNat 11 1 = slice cw.toNat 11 1 := by
  have hmask : slice fmt.mask.toNat 11 1 = 2 ^ (11 - 1 + 1) - 1 := by cases fmt <;> rfl
  rw [BitVec.toNat_and, slice_and, hmask, slice_and_ones]

/-- The fields of a format's mask: zero where the format uses the field, all ones where it does not. -/
theorem fieldsOf_mask :
    fieldsOf Format.D.mask = ⟨0, 15, 15, true⟩ ∧ fieldsOf Format.DF.mask = ⟨0, 15, 15, false⟩ ∧
      fieldsOf Format.S.mask = ⟨15, 0, 15, true⟩ ∧ fieldsOf Format.DS.mask = ⟨0, 0, 15, true⟩ ∧
      fieldsOf Format.DSS.mask = ⟨0, 0, 0, true⟩ ∧ fieldsOf Format.SS.mask = ⟨15, 0, 0, true⟩ := by
  decide

/-- A mask leaves nothing of the fields exactly when those its format does not use are zero. -/
theorem fieldsOf_and_mask_eq_zero_iff (fmt : Format) (cw : CmdWord) :
    fieldsOf (cw &&& fmt.mask) = fieldsD 0 ↔ fieldsOf cw = fmt.keep (fieldsOf cw) := by
  have hones : ∀ r : Reg, r &&& 15 = r := by decide
  have hzero : ∀ r : Reg, r &&& 0 = 0 := by decide
  rw [fieldsOf_and]
  generalize fieldsOf cw = x
  obtain ⟨rd, rs1, rs2, f⟩ := x
  cases fmt with
  | D => simp [Fields.and, fieldsOf_mask, Format.keep, fieldsD, hones, hzero]
  | DF => simp [Fields.and, fieldsOf_mask, Format.keep, fieldsD, fieldsDF, hones, hzero]
  | S => simp [Fields.and, fieldsOf_mask, Format.keep, fieldsD, fieldsS, hones, hzero]
  | DS => simp [Fields.and, fieldsOf_mask, Format.keep, fieldsD, fieldsDS, hones, hzero]
  | DSS => simp [Fields.and, fieldsOf_mask, Format.keep, fieldsD, fieldsDSS, hzero]
  | SS => simp [Fields.and, fieldsOf_mask, Format.keep, fieldsD, fieldsSS, hones, hzero]

theorem matchWord_eq_assemble (row : OpcodeRow) : row.matchWord = assemble row.opcode (fieldsD 0) := by
  simp [OpcodeRow.matchWord, assemble, fieldsD]

/-- 30_encoding.md R60: masking gives the match word for exactly the words the row's format assembles. -/
theorem and_mask_eq_matchWord_iff (row : OpcodeRow) (cw : CmdWord) (ho : row.opcode < 256) :
    cw &&& row.format.mask = row.matchWord ↔ cw = assemble row.opcode (row.format.keep (fieldsOf cw)) := by
  rw [matchWord_eq_assemble, eq_assemble_iff _ _ ho, eq_assemble_iff _ _ ho, opcodeOf_and_mask, reserved_and_mask,
    fieldsOf_and_mask_eq_zero_iff]

/-! ### The rows of the opcode map -/

theorem opcode_lt : ∀ row ∈ opcodeMap, row.opcode < 256 := by decide

/-- No two rows have one opcode. -/
theorem opcode_inj {r1 r2 : OpcodeRow} (h1 : r1 ∈ opcodeMap) (h2 : r2 ∈ opcodeMap) (h : r1.opcode = r2.opcode) :
    r1 = r2 := by
  have hnodup : (opcodeMap.map (·.opcode)).Nodup := by decide
  exact List.inj_on_of_nodup_map hnodup h1 h2 h

theorem findRow_eq_some_iff {o : Nat} {row : OpcodeRow} :
    findRow o = some row ↔ row ∈ opcodeMap ∧ row.opcode = o := by
  constructor
  · intro h
    exact ⟨List.mem_of_find?_eq_some h, by simpa using List.find?_some h⟩
  · rintro ⟨hrow, rfl⟩
    obtain ⟨r, hr⟩ : ∃ r, findRow row.opcode = some r :=
      Option.isSome_iff_exists.1 (List.find?_isSome.2 ⟨row, hrow, beq_self_eq_true _⟩)
    rw [hr, opcode_inj (List.mem_of_find?_eq_some hr) hrow (by simpa using List.find?_some hr)]

/-- The encoder spells what a row builds with the row's opcode and the fields of its format. -/
theorem encode_build : ∀ row ∈ opcodeMap, ∀ x : Fields,
    encode (row.build x) = assemble row.opcode (row.format.keep x) := by
  simp [opcodeMap, codecRows, operationRows, encode, Format.keep]

/-- A row builds from no field but those its format uses. -/
theorem build_keep : ∀ row ∈ opcodeMap, ∀ x : Fields, row.build (row.format.keep x) = row.build x := by
  simp [opcodeMap, codecRows, operationRows, Format.keep, fieldsD, fieldsDF, fieldsS, fieldsDS, fieldsDSS, fieldsSS]

/-- A word that matches a row carries the row's opcode. -/
theorem opcodeOf_of_match {row : OpcodeRow} {cw : CmdWord} (hrow : row ∈ opcodeMap)
    (h : cw &&& row.format.mask = row.matchWord) : opcodeOf cw = row.opcode := by
  rw [(and_mask_eq_matchWord_iff row cw (opcode_lt row hrow)).1 h]
  exact opcodeOf_assemble _ _ (opcode_lt row hrow)

/-- The opcode map has a row for every command. -/
theorem rowFound (i : Instr) : Laws.RowFound.Statement i := by
  cases i with
  | new rd => exact Laws.RowFound.new rd
  | newv rd => exact Laws.RowFound.newv rd
  | getval rs1 => exact Laws.RowFound.getval rs1
  | getml rs1 => exact Laws.RowFound.getml rs1
  | getel rs1 => exact Laws.RowFound.getel rs1
  | getlen rs1 => exact Laws.RowFound.getlen rs1
  | getbits rs1 => exact Laws.RowFound.getbits rs1
  | setmant rd => exact Laws.RowFound.setmant rd
  | setexp rd => exact Laws.RowFound.setexp rd
  | setsign rd f => exact Laws.RowFound.setsign rd f
  | iszero rs1 => exact Laws.RowFound.iszero rs1
  | isnan rs1 => exact Laws.RowFound.isnan rs1
  | isinf rs1 => exact Laws.RowFound.isinf rs1
  | ispos rs1 => exact Laws.RowFound.ispos rs1
  | setzero rd f => exact Laws.RowFound.setzero rd f
  | setnan rd f => exact Laws.RowFound.setnan rd f
  | setinf rd f => exact Laws.RowFound.setinf rd f
  | add rd rs1 rs2 => exact Laws.RowFound.add rd rs1 rs2
  | sub rd rs1 rs2 => exact Laws.RowFound.sub rd rs1 rs2
  | mul rd rs1 rs2 => exact Laws.RowFound.mul rd rs1 rs2
  | div rd rs1 rs2 => exact Laws.RowFound.div rd rs1 rs2
  | eq rs1 rs2 => exact Laws.RowFound.eq rs1 rs2
  | ne rs1 rs2 => exact Laws.RowFound.ne rs1 rs2
  | lt rs1 rs2 => exact Laws.RowFound.lt rs1 rs2
  | le rs1 rs2 => exact Laws.RowFound.le rs1 rs2
  | gt rs1 rs2 => exact Laws.RowFound.gt rs1 rs2
  | ge rs1 rs2 => exact Laws.RowFound.ge rs1 rs2
  | chkprec rs1 rs2 => exact Laws.RowFound.chkprec rs1 rs2
  | cast rd => exact Laws.RowFound.cast rd
  | copy rd rs1 => exact Laws.RowFound.copy rd rs1

/-! ### The decoder and the encoder -/

/-- The decoder accepts by mask and match (30_encoding.md R60), and builds with the row that matches. -/
theorem decode_eq_ok_iff {cw : CmdWord} {i : Instr} : decode cw = .ok i ↔
    ∃ row ∈ opcodeMap, cw &&& row.format.mask = row.matchWord ∧ row.build (fieldsOf cw) = i := by
  constructor
  · intro h
    unfold decode at h
    split at h
    · cases h
    · next row hfind =>
      split at h
      · next hmatch => exact ⟨row, (findRow_eq_some_iff.1 hfind).1, hmatch, Except.ok.inj h⟩
      · cases h
  · rintro ⟨row, hrow, hmatch, rfl⟩
    have hfind : findRow (opcodeOf cw) = some row :=
      findRow_eq_some_iff.2 ⟨hrow, (opcodeOf_of_match hrow hmatch).symm⟩
    simp [decode, hfind, hmatch]

theorem encode_of_decode {cw : CmdWord} {i : Instr} (h : decode cw = .ok i) : encode i = cw := by
  obtain ⟨row, hrow, hmatch, rfl⟩ := decode_eq_ok_iff.1 h
  rw [encode_build row hrow]
  exact ((and_mask_eq_matchWord_iff row cw (opcode_lt row hrow)).1 hmatch).symm

theorem decode_encode (i : Instr) : decode (encode i) = .ok i := by
  obtain ⟨o, x, row, -, hfind, -, rfl⟩ := rowFound i
  obtain ⟨hrow, -⟩ := findRow_eq_some_iff.1 hfind
  have hlt : row.opcode < 256 := opcode_lt row hrow
  rw [encode_build row hrow]
  have hfields : fieldsOf (assemble row.opcode (row.format.keep x)) = row.format.keep x :=
    fieldsOf_assemble _ _ hlt
  refine decode_eq_ok_iff.2 ⟨row, hrow, ?_, ?_⟩
  · rw [and_mask_eq_matchWord_iff row _ hlt, hfields, Format.keep_keep]
  · rw [hfields, build_keep row hrow]

/-- Decoder and encoder are inverse to each other. -/
theorem decode_eq_ok_iff_encode {cw : CmdWord} {i : Instr} : decode cw = .ok i ↔ encode i = cw :=
  ⟨encode_of_decode, fun h => h ▸ decode_encode i⟩

/-! ### The statements -/

/-- Settles O7: the row that spells a command matches its word and reads the spelled fields back. -/
theorem decodeOfEncode : Obligations.DecodeOfEncode := decode_encode

/-- Settles O8: a word that matches a row is assembled from the row's opcode and the fields of its format. -/
theorem encodeOfDecode : Obligations.EncodeOfDecode := fun _ _ => encode_of_decode

/-- Settles O9: the decoder accepts by mask and match, and two rows that match one word both carry its opcode. -/
theorem decodeByMaskAndMatch : Obligations.DecodeByMaskAndMatch := by
  refine ⟨fun cw => ⟨?_, ?_⟩, fun cw r1 h1 r2 h2 hm1 hm2 => ?_⟩
  · rintro ⟨i, hi⟩
    obtain ⟨row, hrow, hmatch, -⟩ := decode_eq_ok_iff.1 hi
    exact ⟨row, hrow, hmatch⟩
  · rintro ⟨row, hrow, hmatch⟩
    exact ⟨_, decode_eq_ok_iff.2 ⟨row, hrow, hmatch, rfl⟩⟩
  · exact (opcodeOf_of_match h1 hm1).symm.trans (opcodeOf_of_match h2 hm2)

/-- Settles O10: each word of the table is the encoder's word for its command. -/
theorem workedEncodings : Obligations.WorkedEncodings :=
  ⟨decode_encode (.new 0), decode_encode (.setsign 3 true), decode_encode (.getbits 5), decode_encode (.copy 3 0),
    decode_encode (.div 2 0 1), decode_encode (.chkprec 3 0)⟩

end Sys2Proof

/-! The command port (30_encoding.md R56 to R58, R64, R65): what a step does with a presented word, when it answers
IllegalCommand, which ports a command looks at, and the kind of its payload. -/

namespace Sys2Proof.Machine

variable {s s' t : State} {i : Instr}

/-! ### A step and the presented word -/

theorem step_of_idle (h : s.inbox = []) : step s = .next s.idle := by
  simp [step, h]

theorem step_of_command {c : Command} {rest : List HostEvent} (h : s.inbox = .command c :: rest) :
    step s = runCommand c { s with inbox := rest } := by
  simp [step, h, takeEvent]

theorem runCommand_of_ok {c : Command} (h : decode c.cw = .ok i) :
    runCommand c s = exec i { s with ports := c.ports } := by
  simp [runCommand, h]

theorem runCommand_of_error {c : Command} {e : DecodeError} (h : decode c.cw = .error e) :
    runCommand c s = .next (State.raise { s with ports := c.ports } .illegalCommand) := by
  simp [runCommand, h]

/-- Settles O5: by the equations of `step` and `runCommand`, one per case. -/
theorem stepRunsDecodedCommand : Obligations.StepRunsDecodedCommand := by
  intro s c rest
  exact ⟨fun i h hd => (step_of_command h).trans (runCommand_of_ok hd),
    fun e h hd => (step_of_command h).trans (runCommand_of_error hd), step_of_idle⟩

/-! ### The six relations -/

/-- EQ to GE are the common body of 42_comparator.md R160, each with its relation. -/
theorem comparison_eq_relop (i : Instr) (rs1 rs2 : Reg)
    (h : i ∈ [Instr.eq rs1 rs2, .ne rs1 rs2, .lt rs1 rs2, .le rs1 rs2, .gt rs1 rs2, .ge rs1 rs2]) :
    ∃ rel, ∀ s, exec i s = relop rel rs1 rs2 s := by
  revert i
  simp only [List.forall_mem_cons]
  exact ⟨⟨fun _ _ => veq, fun _ => rfl⟩, ⟨fun _ _ => vne, fun _ => rfl⟩, ⟨fun _ _ => vlt, fun _ => rfl⟩,
    ⟨fun _ _ => vle, fun _ => rfl⟩, ⟨fun _ _ => vgt, fun _ => rfl⟩, ⟨fun _ _ => vge, fun _ => rfl⟩,
    List.forall_mem_nil _⟩

/-! ### IllegalCommand -/

/-- The result is a next state whose response is another one than IllegalCommand. -/
def EndsLegally (r : Result) : Prop := ∃ t, r = .next t ∧ t.response ≠ some (.error .illegalCommand)

theorem endsLegally_raise (s : State) {e : Error} (he : e ≠ .illegalCommand) : EndsLegally (.next (s.raise e)) :=
  ⟨_, rfl, by simpa using he⟩

theorem endsLegally_answer (s : State) (p : Payload) : EndsLegally (answer s p) := ⟨_, rfl, by simp⟩

theorem endsLegally_writeOk (s : State) (rd : Reg) (n : Instance) : EndsLegally (writeOk s rd n) :=
  ⟨_, rfl, by simp⟩

theorem endsLegally_setField (s : State) (rd : Reg) (n : Instance) (start width : Nat) :
    EndsLegally (setField s rd n start width) := by
  unfold setField
  split
  · exact endsLegally_writeOk _ _ _
  · exact endsLegally_raise s (by decide)

theorem endsLegally_withWidths {body : Result} (hb : EndsLegally body) : EndsLegally (withWidths s body) := by
  unfold withWidths
  split
  · exact hb
  · exact endsLegally_raise s (by decide)

theorem endsLegally_withDest {rd : Reg} {body : Result} (hu : [rd].all s.hasReg = true) (hb : EndsLegally body) :
    EndsLegally (withDest s rd body) := by
  have hrd : s.hasReg rd = true := by simpa using hu
  rw [withDest, if_pos hrd]
  exact hb

theorem endsLegally_withSource {used : List Reg} {r : Reg} {body : Instance → Result}
    (hu : used.all s.hasReg = true) (hb : ∀ n, EndsLegally (body n)) : EndsLegally (withSource s used r body) := by
  rw [withSource, if_pos hu]
  split
  · exact hb _
  · exact endsLegally_raise s (by decide)

theorem endsLegally_withSources {used : List Reg} {rs1 rs2 : Reg} {body : Instance → Instance → Result}
    (hu : used.all s.hasReg = true) (hb : ∀ x y, EndsLegally (body x y)) :
    EndsLegally (withSources s used rs1 rs2 body) := by
  rw [withSources, if_pos hu]
  split
  · exact hb _ _
  · exact endsLegally_raise s (by decide)

theorem endsLegally_binop {op : Val → Val → Val} {rd rs1 rs2 : Reg} (hu : [rd, rs1, rs2].all s.hasReg = true) :
    EndsLegally (binop op rd rs1 rs2 s) := by
  refine endsLegally_withSources hu fun x y => ?_
  split
  · exact endsLegally_writeOk _ _ _
  · exact endsLegally_raise s (by decide)

theorem endsLegally_relop {rel : Nat → Nat → Val → Val → Bool} {rs1 rs2 : Reg} (hu : [rs1, rs2].all s.hasReg = true) :
    EndsLegally (relop rel rs1 rs2 s) := by
  refine endsLegally_withSources hu fun x y => ?_
  split
  · exact endsLegally_answer _ _
  · exact endsLegally_raise s (by decide)

theorem endsLegally_cast {rd : Reg} (hu : [rd].all s.hasReg = true) : EndsLegally (execCast rd s) := by
  refine endsLegally_withSource hu fun n => endsLegally_withWidths ?_
  split
  · exact endsLegally_answer _ _
  · exact endsLegally_writeOk _ _ _

/-- A command whose register numbers the engine has ends, and not with IllegalCommand. -/
theorem exec_endsLegally (h : i.wellFormed s.params = true) : EndsLegally (exec i s) := by
  have hu : i.uses.all s.hasReg = true := h
  have hcomparison := comparison_eq_relop i
  cases i with
  | new _ | newv _ => exact endsLegally_withDest hu (endsLegally_withWidths (endsLegally_writeOk _ _ _))
  | getval _ | getml _ | getel _ | getlen _ | getbits _ | iszero _ | isnan _ | isinf _ | ispos _ =>
    exact endsLegally_withSource hu fun _ => endsLegally_answer _ _
  | setmant _ | setexp _ => exact endsLegally_withSource hu fun _ => endsLegally_setField _ _ _ _ _
  | setsign _ _ | setzero _ _ | setnan _ _ | setinf _ _ | copy _ _ =>
    exact endsLegally_withSource hu fun _ => endsLegally_writeOk _ _ _
  | add _ _ _ | sub _ _ _ | mul _ _ _ | div _ _ _ => exact endsLegally_binop hu
  | eq rs1 rs2 | ne rs1 rs2 | lt rs1 rs2 | le rs1 rs2 | gt rs1 rs2 | ge rs1 rs2 =>
    obtain ⟨rel, hrel⟩ := hcomparison rs1 rs2 (by simp)
    rw [hrel]
    exact endsLegally_relop hu
  | chkprec _ _ => exact endsLegally_relop hu
  | cast _ => exact endsLegally_cast hu

/-- Every command ends (70_reset_and_hazards.md R243). -/
theorem exec_goes_on (i : Instr) (s : State) : ∃ t, exec i s = .next t := by
  cases h : i.wellFormed s.params with
  | true =>
    obtain ⟨t, ht, -⟩ := exec_endsLegally h
    exact ⟨t, ht⟩
  | false => exact ⟨_, exec_of_not_wellFormed h⟩

/-- A decoded command is answered with IllegalCommand exactly when check 3 of 30_encoding.md R64 fails. -/
theorem exec_illegal_iff (h : exec i s = .next t) :
    t.response = some (.error .illegalCommand) ↔ i.wellFormed s.params = false := by
  constructor
  · intro hr
    by_contra hw
    obtain ⟨u, hu, hne⟩ := exec_endsLegally (Bool.not_eq_false _ ▸ hw)
    exact hne (next_inj (h.symm.trans hu) ▸ hr)
  · intro hw
    rw [next_inj (h.symm.trans (exec_of_not_wellFormed hw)), raise_response]

/-- Settles O6: a word that does not decode spells no command; one that decodes spells just one, and check 3 decides. -/
theorem illegalWordsExactly : Obligations.IllegalWordsExactly := by
  intro s c rest h
  rw [step_of_command h]
  cases hd : decode c.cw with
  | error e =>
    refine ⟨_, runCommand_of_error hd, iff_of_true rfl ?_, fun _ => rfl⟩
    rintro ⟨i, hi, -⟩
    rw [decode_eq_ok_iff_encode.2 hi] at hd
    cases hd
  | ok i =>
    obtain ⟨t, ht⟩ := exec_goes_on i { s with inbox := rest, ports := c.ports }
    have hspells : (∃ j, encode j = c.cw ∧ j.wellFormed s.params = true) ↔ i.wellFormed s.params = true := by
      simp [← decode_eq_ok_iff_encode, hd]
    refine ⟨t, (runCommand_of_ok hd).trans ht, ?_, fun hr => ?_⟩
    · rw [exec_illegal_iff ht, hspells, Bool.not_eq_true]
    · rw [next_inj (ht.symm.trans (exec_of_not_wellFormed ((exec_illegal_iff ht).1 hr))), raise_regs]

/-! ### What a command sees -/

theorem hasReg_congr (hp : s'.params = s.params) : s'.hasReg = s.hasReg := by
  funext r
  rw [State.hasReg, State.hasReg, hp]

/-- Where the first result is a next state, so is the second, with the same registers and the same response. -/
def SameAnswer (r r' : Result) : Prop :=
  ∀ t, r = .next t → ∃ t', r' = .next t' ∧ t'.regs = t.regs ∧ t'.response = t.response

theorem sameAnswer_next {t' : State} (hr : t'.regs = t.regs) (hq : t'.response = t.response) :
    SameAnswer (.next t) (.next t') := by
  rintro _ ⟨⟩
  exact ⟨t', rfl, hr, hq⟩

section SameRegisters

variable (hp : s'.params = s.params) (hr : s'.regs = s.regs)
include hr

theorem sameAnswer_raise (e : Error) : SameAnswer (.next (s.raise e)) (.next (s'.raise e)) :=
  sameAnswer_next hr rfl

theorem sameAnswer_answer (p : Payload) : SameAnswer (answer s p) (answer s' p) := sameAnswer_next hr rfl

theorem sameAnswer_writeOk (rd : Reg) (n : Instance) : SameAnswer (writeOk s rd n) (writeOk s' rd n) :=
  sameAnswer_next (by simp [hr]) rfl

theorem sameAnswer_setField (hd : s.ports.d = s'.ports.d) (rd : Reg) (n : Instance) (start width : Nat) :
    SameAnswer (setField s rd n start width) (setField s' rd n start width) := by
  unfold setField
  rw [← hd]
  split
  · exact sameAnswer_writeOk hr _ _
  · exact sameAnswer_raise hr _

include hp

theorem sameAnswer_withWidths {body body' : Result} (ha : s.ports.a = s'.ports.a) (hb : s.ports.b = s'.ports.b)
    (h : SameAnswer body body') : SameAnswer (withWidths s body) (withWidths s' body') := by
  unfold withWidths
  rw [hp, ← ha, ← hb]
  split
  · exact h
  · exact sameAnswer_raise hr _

theorem sameAnswer_withDest {rd : Reg} {body body' : Result} (h : SameAnswer body body') :
    SameAnswer (withDest s rd body) (withDest s' rd body') := by
  unfold withDest
  rw [hasReg_congr hp]
  split
  · exact h
  · exact sameAnswer_raise hr _

theorem sameAnswer_withSource {used : List Reg} {r : Reg} {body body' : Instance → Result}
    (h : ∀ n, SameAnswer (body n) (body' n)) : SameAnswer (withSource s used r body) (withSource s' used r body') := by
  unfold withSource
  rw [hasReg_congr hp, inst_congr r hr]
  split
  · cases s.inst r with
    | some n => exact h n
    | none => exact sameAnswer_raise hr _
  · exact sameAnswer_raise hr _

theorem sameAnswer_withSources {used : List Reg} {rs1 rs2 : Reg} {body body' : Instance → Instance → Result}
    (h : ∀ x y, SameAnswer (body x y) (body' x y)) :
    SameAnswer (withSources s used rs1 rs2 body) (withSources s' used rs1 rs2 body') := by
  unfold withSources
  rw [hasReg_congr hp, inst_congr rs1 hr, inst_congr rs2 hr]
  split
  · cases s.inst rs1 with
    | none => exact sameAnswer_raise hr _
    | some x =>
      cases s.inst rs2 with
      | none => exact sameAnswer_raise hr _
      | some y => exact h x y
  · exact sameAnswer_raise hr _

theorem sameAnswer_binop (op : Val → Val → Val) (rd rs1 rs2 : Reg) :
    SameAnswer (binop op rd rs1 rs2 s) (binop op rd rs1 rs2 s') := by
  refine sameAnswer_withSources hp hr fun x y => ?_
  split
  · exact sameAnswer_writeOk hr _ _
  · exact sameAnswer_raise hr _

theorem sameAnswer_relop (rel : Nat → Nat → Val → Val → Bool) (rs1 rs2 : Reg) :
    SameAnswer (relop rel rs1 rs2 s) (relop rel rs1 rs2 s') := by
  refine sameAnswer_withSources hp hr fun x y => ?_
  split
  · exact sameAnswer_answer hr _
  · exact sameAnswer_raise hr _

theorem sameAnswer_cast (rd : Reg) (ha : s.ports.a = s'.ports.a) (hb : s.ports.b = s'.ports.b) :
    SameAnswer (execCast rd s) (execCast rd s') := by
  refine sameAnswer_withSource hp hr fun n => sameAnswer_withWidths hp hr ha hb ?_
  rw [← ha, ← hb]
  split
  · exact sameAnswer_answer hr _
  · exact sameAnswer_writeOk hr _ _

/-- A command looks at the parameters, the registers and the ports it uses (30_encoding.md R57). -/
theorem exec_sameAnswer (h : portsAgree i s.params s.ports s'.ports) : SameAnswer (exec i s) (exec i s') := by
  have hcomparison := comparison_eq_relop i
  cases i with
  | new rd =>
    obtain ⟨ha, hb⟩ := h
    refine sameAnswer_withDest hp hr (sameAnswer_withWidths hp hr ha hb ?_)
    rw [← ha, ← hb]
    exact sameAnswer_writeOk hr _ _
  | newv rd =>
    obtain ⟨ha, hb, hv⟩ := h
    refine sameAnswer_withDest hp hr (sameAnswer_withWidths hp hr ha hb ?_)
    rw [← ha, ← hb, hp, fromHost, fromHost, ← hv]
    exact sameAnswer_writeOk hr _ _
  | getval _ =>
    refine sameAnswer_withSource hp hr fun n => ?_
    rw [hp]
    exact sameAnswer_answer hr _
  | getml _ | getel _ | getlen _ | getbits _ | iszero _ | isnan _ | isinf _ | ispos _ =>
    exact sameAnswer_withSource hp hr fun _ => sameAnswer_answer hr _
  | setmant _ | setexp _ => exact sameAnswer_withSource hp hr fun _ => sameAnswer_setField hr h _ _ _ _
  | setsign _ _ | setzero _ _ | setnan _ _ | setinf _ _ | copy _ _ =>
    exact sameAnswer_withSource hp hr fun _ => sameAnswer_writeOk hr _ _
  | add _ _ _ | sub _ _ _ | mul _ _ _ | div _ _ _ => exact sameAnswer_binop hp hr _ _ _ _
  | eq rs1 rs2 | ne rs1 rs2 | lt rs1 rs2 | le rs1 rs2 | gt rs1 rs2 | ge rs1 rs2 =>
    obtain ⟨rel, hrel⟩ := hcomparison rs1 rs2 (by simp)
    rw [hrel, hrel]
    exact sameAnswer_relop hp hr _ _ _
  | chkprec _ _ =>
    have ha : s.ports.a = s'.ports.a := h
    rw [exec, exec, execChkprec, execChkprec, ← ha]
    exact sameAnswer_relop hp hr _ _ _
  | cast rd => exact sameAnswer_cast hp hr rd h.1 h.2

end SameRegisters

/-- Settles O58: each shared operation of the commands gives the same answer in both states. -/
theorem commandsSeeOnlyRegistersAndTheirPorts : Obligations.CommandsSeeOnlyRegistersAndTheirPorts :=
  fun _ _ _ t hp hr hports h => exec_sameAnswer hp hr hports t h

/-! ### Payloads -/

theorem one_le_hostM (hs : s.wf = true) : 1 ≤ s.params.hostM := by
  obtain ⟨hlegal, -, -⟩ := (wf_iff s).1 hs
  simp only [Params.legal, Bool.and_eq_true, decide_eq_true_eq] at hlegal
  obtain ⟨⟨-, hM⟩, -⟩ := hlegal
  exact hM

/-- A command that writes a register returns no payload. -/
theorem payload_of_write {rd : Reg} {p : Payload} (hs : s.wf = true) (hw : i.writes = some rd)
    (h : exec i s = .next t) (hq : t.response = some (.ok p)) : p = .none := by
  obtain ⟨e, rfl⟩ | ⟨-, rfl⟩ | ⟨n, -, rfl⟩ := exec_writeEffect hs hw h
  · cases hq
  · cases hq; rfl
  · cases hq; rfl

theorem payload_of_query {r : Reg} {f : Instance → Payload} {p : Payload}
    (h : withSource s [r] r (fun n => answer s (f n)) = .next t) (hq : t.response = some (.ok p)) :
    ∃ n, s.inst r = some n ∧ p = f n := by
  obtain ⟨n, hn, rfl⟩ | ⟨e, rfl⟩ := query_next h
  · cases hq; exact ⟨n, hn, rfl⟩
  · cases hq

theorem payload_of_relop {rel : Nat → Nat → Val → Val → Bool} {rs1 rs2 : Reg} {p : Payload}
    (h : relop rel rs1 rs2 s = .next t) (hq : t.response = some (.ok p)) : ∃ x, p = .bool x := by
  obtain ⟨x, y, -, -, -, rfl⟩ | ⟨e, rfl⟩ := relop_next h
  · cases hq; exact ⟨_, rfl⟩
  · cases hq

/-- Settles O59: by the inversion lemma of each kind of command; the lengths of the sequences are R21 and the length of
an encoded number. -/
theorem payloadKinds : Obligations.PayloadKinds := by
  intro i s t p hs h hq
  have hcomparison := comparison_eq_relop i
  cases i with
  | new _ | newv _ | setmant _ | setexp _ | setsign _ _ | setzero _ _ | setnan _ _ | setinf _ _ | add _ _ _
  | sub _ _ _ | mul _ _ _ | div _ _ _ | cast _ | copy _ _ => exact payload_of_write hs rfl h hq
  | getval _ =>
    obtain ⟨n, -, hp⟩ := payload_of_query h hq
    exact ⟨_, hp, encodeNum_length _ _ (one_le_hostM hs)⟩
  | getbits r =>
    obtain ⟨n, hn, hp⟩ := payload_of_query h hq
    exact ⟨_, n, hp, hn, ((instance_wf_iff _ n).1 (wf_inst hs hn)).2⟩
  | getml _ | getel _ | getlen _ | iszero _ | isnan _ | isinf _ | ispos _ =>
    obtain ⟨n, -, hp⟩ := payload_of_query h hq
    exact ⟨_, hp⟩
  | eq rs1 rs2 | ne rs1 rs2 | lt rs1 rs2 | le rs1 rs2 | gt rs1 rs2 | ge rs1 rs2 =>
    obtain ⟨rel, hrel⟩ := hcomparison rs1 rs2 (by simp)
    exact payload_of_relop (hrel s ▸ h) hq
  | chkprec _ _ => exact payload_of_relop h hq

end Sys2Proof.Machine

/-! The number format (40_codec.md R80 to R83, R103). Read as one number, the exponent and mantissa fields of an array are
the `K` of R81: an array is a sign and a `K` (`numberBits`), and its value is the sign on the `K`-th magnitude of the
shape (`magnitude`). Encoding rounds a rational to a `K` (`packedMagnitude`), and gives back the `K` of the rationals on the grid
(`packedMagnitude_gridValue`); the round trip and the monotonicity of R103 follow. -/

namespace Sys2Proof.Machine

variable {b : Bits} {m e j k : Nat} {s : Bool} {a q : Rat}

/-! ### An array as a sign and one number -/

/-- The exponent and mantissa fields of an array as one number, `K` of 40_codec.md R81. -/
def packedFields (b : Bits) (m e : Nat) : Nat := expField b e * 2 ^ m + mantField b m e

/-- The array with a sign and a `K`. -/
def numberBits (s : Bool) (k m e : Nat) : Bits := [s] ++ unpack (k / 2 ^ m) e ++ unpack (k % 2 ^ m) m

/-- The `K` of the infinities of a shape, the largest `K` that is no NaN. -/
def infinityNumber (m e : Nat) : Nat := efmax e * 2 ^ m

@[simp] theorem numberBits_length : (numberBits s k m e).length = m + e + 1 := by
  simp [numberBits]; omega

theorem infinityNumber_pos (he : 1 ≤ e) : 0 < infinityNumber m e :=
  Nat.mul_pos (efmax_pos he) (Nat.two_pow_pos m)

theorem infinityNumber_le_iff : infinityNumber m e ≤ k ↔ efmax e ≤ k / 2 ^ m :=
  (Nat.le_div_iff_mul_le (Nat.two_pow_pos m)).symm

theorem packedFields_div (hb : b.length = m + e + 1) : packedFields b m e / 2 ^ m = expField b e := by
  rw [packedFields, Nat.add_comm, Nat.add_mul_div_right _ _ (Nat.two_pow_pos m),
    Nat.div_eq_of_lt (mantField_lt hb), Nat.zero_add]

theorem packedFields_mod (hb : b.length = m + e + 1) : packedFields b m e % 2 ^ m = mantField b m e := by
  rw [packedFields, Nat.add_comm, Nat.add_mul_mod_self_right, Nat.mod_eq_of_lt (mantField_lt hb)]

theorem packedFields_eq_zero_iff : packedFields b m e = 0 ↔ expField b e = 0 ∧ mantField b m e = 0 := by
  simp [packedFields]

/-- The sign and the fields of `numberBits`, for a `K` up to the infinity's. -/
theorem fields_numberBits (hk : k ≤ infinityNumber m e) :
    signOf (numberBits s k m e) = s ∧ expField (numberBits s k m e) e = k / 2 ^ m ∧
      mantField (numberBits s k m e) m e = k % 2 ^ m := by
  obtain ⟨hs, hx, hy⟩ := fields_of_numbers s (k / 2 ^ m) (k % 2 ^ m) m e
  have hlt : k / 2 ^ m < 2 ^ e := by
    have : k / 2 ^ m ≤ efmax e := Nat.div_le_of_le_mul (by rwa [Nat.mul_comm])
    have := efmax_add_one e
    omega
  exact ⟨hs, hx.trans (Nat.mod_eq_of_lt hlt), hy.trans (Nat.mod_mod _ _)⟩

theorem packedFields_numberBits (hk : k ≤ infinityNumber m e) : packedFields (numberBits s k m e) m e = k := by
  obtain ⟨-, hx, hy⟩ := fields_numberBits (s := s) hk
  rw [packedFields, hx, hy, Nat.div_add_mod']

theorem expField_le_efmax (hb : b.length = m + e + 1) : expField b e ≤ efmax e := by
  have := expField_lt hb
  have := efmax_add_one e
  omega

/-- An array is the array of its sign and its `K`. -/
theorem eq_numberBits (hb : b.length = m + e + 1) (hs : signOf b = s) (hk : packedFields b m e = k) :
    b = numberBits s k m e := by
  obtain ⟨hs', hx, hy⟩ := fields_of_numbers s (k / 2 ^ m) (k % 2 ^ m) m e
  subst hk
  refine bits_ext hb numberBits_length (hs.trans hs'.symm) (Eq.symm ?_) (Eq.symm ?_)
  · exact hx.trans ((congrArg (· % 2 ^ e) (packedFields_div hb)).trans (Nat.mod_eq_of_lt (expField_lt hb)))
  · exact hy.trans ((Nat.mod_mod _ _).trans (packedFields_mod hb))

theorem zeroBits_eq_numberBits : zeroBits s m e = numberBits s 0 m e := by
  obtain ⟨hs, hx, hy⟩ := fields_zeroBits s m e
  exact eq_numberBits (zeroBits_length s m e) hs (packedFields_eq_zero_iff.2 ⟨hx, hy⟩)

theorem infBits_eq_numberBits : infBits s m e = numberBits s (infinityNumber m e) m e := by
  obtain ⟨hs, hx, hy⟩ := fields_infBits s m e
  exact eq_numberBits (infBits_length s m e) hs (by rw [packedFields, hx, hy, infinityNumber, Nat.add_zero])

/-! ### The magnitudes of a shape -/

/-- The `K`-th rational of a shape, counted from 0: below `2^m` on the subnormal grid of step `2^(emin - m)`, from there
on with a leading one and a step that doubles with each exponent field. -/
def gridValue (m e k : Nat) : Rat :=
  ((if k < 2 ^ m then k else 2 ^ m + k % 2 ^ m : Nat) : Rat) * pow2 (emin e + (k / 2 ^ m - 1 : Nat) - m)

/-- The value of the array with sign 0 and the given `K`, up to the infinity. -/
def magnitude (m e k : Nat) : Val :=
  if k = 0 then .zero false else if infinityNumber m e ≤ k then .inf false else .fin (gridValue m e k)

/-- A sign put on a value. -/
def withSign (s : Bool) (v : Val) : Val := if s then neg v else v

@[simp] theorem withSign_zero : withSign s (.zero false) = .zero s := by cases s <;> rfl
@[simp] theorem withSign_inf : withSign s (.inf false) = .inf s := by cases s <;> rfl
@[simp] theorem withSign_fin : withSign s (.fin q) = .fin (signFactor s * q) := by
  cases s <;> simp [withSign, neg, signFactor]

theorem gridValue_pos (hk : 0 < k) : 0 < gridValue m e k := by
  refine mul_pos (Nat.cast_pos.2 ?_) (pow2_pos _)
  split
  · exact hk
  · exact Nat.add_pos_left (Nat.two_pow_pos m) _

@[simp] theorem gridValue_zero : gridValue m e 0 = 0 := by simp [gridValue]

theorem mul_pow2_sub (x : Rat) (i : Int) (m : Nat) : x * pow2 (i - m) = x / (2 ^ m : Nat) * pow2 i := by
  rw [← pow2_natCast, pow2_eq, pow2_eq, pow2_eq, zpow_sub₀ (by norm_num)]
  ring

theorem gridValue_of_subnormal (hk : k / 2 ^ m = 0) :
    gridValue m e k = ((k % 2 ^ m : Nat) : Rat) / (2 ^ m : Nat) * pow2 (1 - bias e) := by
  have hlt : k < 2 ^ m := (Nat.div_eq_zero_iff_lt (Nat.two_pow_pos m)).1 hk
  rw [gridValue, if_pos hlt, hk, mul_pow2_sub, Nat.mod_eq_of_lt hlt]
  simp [emin]

theorem gridValue_of_normal (hk : k / 2 ^ m ≠ 0) :
    gridValue m e k = (1 + ((k % 2 ^ m : Nat) : Rat) / (2 ^ m : Nat)) * pow2 ((k / 2 ^ m : Nat) - bias e) := by
  have hge : ¬ k < 2 ^ m := fun h => hk (Nat.div_eq_of_lt h)
  have hexp : emin e + (k / 2 ^ m - 1 : Nat) = (k / 2 ^ m : Nat) - bias e := by
    rw [Nat.cast_sub (Nat.one_le_iff_ne_zero.2 hk), emin]
    push_cast
    ring
  have hm : ((2 ^ m : Nat) : Rat) ≠ 0 := by positivity
  rw [gridValue, if_neg hge, hexp, mul_pow2_sub, Nat.cast_add, add_div, div_self hm]

/-! ### Decoding -/

theorem decodeNum_eq_nan (he : 1 ≤ e) (hx : expField b e = efmax e) (hy : mantField b m e ≠ 0) :
    decodeNum b m e = .nan := by
  have := (efmax_pos he).ne'
  simp [decodeNum, hx, hy, this]

/-- What an array that is no NaN decodes to. -/
theorem decodeNum_eq_magnitude (he : 1 ≤ e) (hb : b.length = m + e + 1)
    (hk : packedFields b m e ≤ infinityNumber m e) :
    decodeNum b m e = withSign (signOf b) (magnitude m e (packedFields b m e)) := by
  have hdiv := packedFields_div hb
  have hmod := packedFields_mod hb
  have hle := expField_le_efmax hb
  have hpos := efmax_pos he
  unfold magnitude
  split_ifs with hzero hinf
  · obtain ⟨hx, hy⟩ := packedFields_eq_zero_iff.1 hzero
    simp [decodeNum, hx, hy]
  · have hK := le_antisymm hk hinf
    have hx : expField b e = efmax e := le_antisymm hle (hdiv ▸ infinityNumber_le_iff.1 hinf)
    have hy : mantField b m e = 0 := by rw [← hmod, hK, infinityNumber, Nat.mul_mod_left]
    simp [decodeNum, hx, hy, hpos.ne']
  · have hx : expField b e ≠ efmax e := fun h => hinf (infinityNumber_le_iff.2 (hdiv.trans h).ge)
    by_cases hsub : expField b e = 0
    · have hy : mantField b m e ≠ 0 := fun h => hzero (packedFields_eq_zero_iff.2 ⟨hsub, h⟩)
      rw [gridValue_of_subnormal (hdiv.trans hsub), hmod]
      simp [decodeNum, hsub, hy, mul_assoc]
    · rw [gridValue_of_normal (hdiv.symm ▸ hsub), hmod, hdiv]
      simp [decodeNum, hsub, hx, mul_assoc]

/-- An array is a NaN, or its `K` is at most the infinity's. -/
theorem decodeNum_eq_nan_or (he : 1 ≤ e) (hb : b.length = m + e + 1) :
    decodeNum b m e = .nan ∨ packedFields b m e ≤ infinityNumber m e := by
  rw [or_iff_not_imp_right, not_le]
  intro hlt
  have hx : expField b e = efmax e :=
    le_antisymm (expField_le_efmax hb) (packedFields_div hb ▸ infinityNumber_le_iff.1 hlt.le)
  refine decodeNum_eq_nan he hx fun hy => hlt.ne ?_
  rw [packedFields, hx, hy, infinityNumber, Nat.add_zero]

theorem decodeNum_numberBits (he : 1 ≤ e) (hk : k ≤ infinityNumber m e) :
    decodeNum (numberBits s k m e) m e = withSign s (magnitude m e k) := by
  obtain ⟨hs, -, -⟩ := fields_numberBits (s := s) hk
  have hK := packedFields_numberBits (s := s) hk
  rw [decodeNum_eq_magnitude he numberBits_length (hK.symm ▸ hk), hs, hK]

theorem decodeNum_canonicalNaN (hm : 1 ≤ m) (he : 1 ≤ e) : decodeNum (canonicalNaN m e) m e = .nan := by
  obtain ⟨-, hx, hy⟩ := fields_nanBits false e hm
  exact decodeNum_eq_nan he hx (hy ▸ (Nat.two_pow_pos _).ne')

/-- Settles O11: the five cases of `decodeNum`, with the fields and constants written out. -/
theorem decodeFollowsTheFormula : Obligations.DecodeFollowsTheFormula := by
  intro b m e hm he hb s ef mf sgn bs
  have hs : signOf b = s := rfl
  have hx : expField b e = ef := rfl
  have hy : mantField b m e = mf := by
    rw [mantField, mantBits, List.take_of_length_le (by simp; omega)]
  have hsgn : signFactor s = sgn := by simp only [sgn]; cases s <;> simp [signFactor]
  have hbias : bias e = bs := by simp [bias, bs]
  have hmax : 2 ^ e - 1 ≠ 0 := (efmax_pos he).ne'
  simp only [decodeNum, hs, hx, hy, hsgn, hbias, efmax, pow2_eq, Nat.cast_pow, Nat.cast_ofNat]
  refine ⟨fun h => if_pos h, ?_, ?_, ?_, ?_⟩
  · rintro ⟨h0, h⟩
    simp [h0, h]
  · rintro ⟨h1, h⟩
    simp [h1, h, hmax]
  · rintro ⟨h1, h⟩
    simp [h1, h, hmax]
  · rintro ⟨h0, h1⟩
    simp [h0, h1]

/-! ### Encoding -/

/-- The exponent at which a positive rational is rounded: `Eq` of 40_codec.md R81. -/
def gridExp (a : Rat) (e : Nat) : Int := max (floorlog2 a) (emin e)

theorem packedMagnitude_eq (a : Rat) (m e : Nat) : packedMagnitude a m e =
    (gridExp a e - emin e).toNat * 2 ^ m + rne (a / pow2 (gridExp a e - m)) := rfl

theorem emin_le_gridExp (a : Rat) (e : Nat) : emin e ≤ gridExp a e := le_max_right _ _

theorem lt_pow2_gridExp (ha : 0 < a) : a < pow2 (gridExp a e + 1) :=
  (floorlog2_spec ha).2.trans_le (pow2_le (by simp [gridExp]))

theorem pow2_gridExp_le (ha : 0 < a) (h : emin e < gridExp a e) : pow2 (gridExp a e) ≤ a := by
  obtain hE | hE := max_choice (floorlog2 a) (emin e)
  · rw [gridExp, hE]
    exact (floorlog2_spec ha).1
  · exact absurd hE h.ne'

/-- The logarithm, and so the exponent, grows with the rational. -/
theorem gridExp_mono {a' : Rat} (ha : 0 < a) (h : a ≤ a') : gridExp a e ≤ gridExp a' e := by
  have hlt : pow2 (floorlog2 a) < pow2 (floorlog2 a' + 1) :=
    (floorlog2_spec ha).1.trans_lt (h.trans_lt (floorlog2_spec (ha.trans_le h)).2)
  exact max_le_max_right _ (Int.lt_add_one_iff.1 (pow2_lt_iff.1 hlt))

/-- A power of two as a number of steps of `2^(i - m)`. -/
theorem pow2_eq_steps (i : Int) (m d : Nat) : pow2 (i + d) = ((2 ^ (m + d) : Nat) : Rat) * pow2 (i - m) := by
  rw [← pow2_natCast, ← pow2_add]
  congr 1
  push_cast
  ring

theorem pow2_div_pow2 (i : Int) (m d : Nat) : pow2 (i + d) / pow2 (i - m) = ((2 ^ (m + d) : Nat) : Rat) := by
  rw [pow2_eq_steps i m d, mul_div_cancel_right₀ _ (pow2_pos _).ne']

/-- Rounding is monotone: within one exponent because `rne` is, and across exponents because the smaller rational rounds
to at most `2^(m+1)` and the larger to at least `2^m` steps. -/
theorem packedMagnitude_mono {a' : Rat} (ha : 0 < a) (h : a ≤ a') :
    packedMagnitude a m e ≤ packedMagnitude a' m e := by
  rw [packedMagnitude_eq, packedMagnitude_eq]
  have hmin := emin_le_gridExp a e
  have hpos : ∀ i : Int, 0 ≤ a / pow2 i := fun i => div_nonneg ha.le (pow2_pos i).le
  obtain hE | hE := (gridExp_mono (e := e) ha h).eq_or_lt
  · rw [← hE]
    exact Nat.add_le_add_left (rne_mono (hpos _) (div_le_div_of_nonneg_right h (pow2_pos _).le)) _
  · have hlow : rne (a / pow2 (gridExp a e - m)) ≤ 2 ^ (m + 1) := by
      rw [← rne_natCast (2 ^ (m + 1)), ← pow2_div_pow2 (gridExp a e) m 1]
      exact rne_mono (hpos _) (div_le_div_of_nonneg_right (lt_pow2_gridExp ha).le (pow2_pos _).le)
    have hhigh : 2 ^ m ≤ rne (a' / pow2 (gridExp a' e - m)) := by
      have hle := pow2_gridExp_le (ha.trans_le h) (hmin.trans_lt hE)
      rw [← rne_natCast (2 ^ m), ← Nat.add_zero m, ← pow2_div_pow2 (gridExp a' e) m 0]
      simp only [Nat.cast_zero, add_zero]
      exact rne_mono (div_nonneg (pow2_pos _).le (pow2_pos _).le) (div_le_div_of_nonneg_right hle (pow2_pos _).le)
    have hstep : (gridExp a e - emin e).toNat + 1 ≤ (gridExp a' e - emin e).toNat := by omega
    have := Nat.mul_le_mul_right (2 ^ m) hstep
    rw [pow_succ] at hlow
    linarith

/-- The exponent is `emin + j` below `2^(emin + j + 1)`, and from `2^(emin + j)` on unless `j` is 0. -/
theorem gridExp_of_bounds (ha : 0 < a) (hlt : a < pow2 (emin e + j + 1)) (hge : j = 0 ∨ pow2 (emin e + j) ≤ a) :
    gridExp a e = emin e + j := by
  obtain rfl | hge := hge
  · have hlog : floorlog2 a < emin e + (0 : Nat) + 1 := pow2_lt_iff.1 ((floorlog2_spec ha).1.trans_lt hlt)
    simp only [gridExp]
    omega
  · rw [gridExp, floorlog2_unique hge hlt]
    omega

/-- Rounding leaves a rational on the grid where it is: `n` steps of the exponent `emin + j`, with at most `m + 1` digits,
and with that many unless the exponent is the smallest. -/
theorem packedMagnitude_of_steps {n : Nat} (hn : 0 < n) (hlt : n < 2 ^ (m + 1)) (hge : j = 0 ∨ 2 ^ m ≤ n) :
    packedMagnitude (n * pow2 (emin e + j - m)) m e = j * 2 ^ m + n := by
  have hp : 0 < pow2 (emin e + j - m) := pow2_pos _
  have hE : gridExp (n * pow2 (emin e + j - m)) e = emin e + j := by
    have hupper : pow2 (emin e + j + 1) = (2 ^ (m + 1) : Nat) * pow2 (emin e + j - m) := pow2_eq_steps _ m 1
    have hlower : pow2 (emin e + j) = (2 ^ m : Nat) * pow2 (emin e + j - m) := by simpa using pow2_eq_steps _ m 0
    refine gridExp_of_bounds (mul_pos (Nat.cast_pos.2 hn) hp) ?_ (hge.imp_right fun hge => ?_)
    · rw [hupper]
      exact mul_lt_mul_of_pos_right (Nat.cast_lt.2 hlt) hp
    · rw [hlower]
      exact mul_le_mul_of_nonneg_right (Nat.cast_le.2 hge) hp.le
  rw [packedMagnitude_eq, hE, mul_div_cancel_right₀ _ hp.ne', rne_natCast, add_sub_cancel_left, Int.toNat_natCast]

theorem packedMagnitude_gridValue (hk : 0 < k) : packedMagnitude (gridValue m e k) m e = k := by
  have hmod : k % 2 ^ m < 2 ^ m := Nat.mod_lt _ (Nat.two_pow_pos m)
  have hdm : k / 2 ^ m * 2 ^ m + k % 2 ^ m = k := Nat.div_add_mod' k _
  rw [gridValue]
  split_ifs with hsub
  · rw [packedMagnitude_of_steps hk (hsub.trans (by simp [pow_succ])) (.inl (by simp [Nat.div_eq_of_lt hsub]))]
    simp [Nat.div_eq_of_lt hsub]
  · have hx : 1 ≤ k / 2 ^ m := (Nat.one_le_div_iff (Nat.two_pow_pos m)).2 (not_lt.1 hsub)
    rw [packedMagnitude_of_steps (by omega) (by rw [pow_succ]; omega) (.inr (by omega)), Nat.sub_mul, one_mul]
    have := Nat.mul_le_mul_right (2 ^ m) hx
    omega

/-- The grid is listed in order. -/
theorem gridValue_mono (h : j ≤ k) : gridValue m e j ≤ gridValue m e k := by
  obtain rfl | hj := Nat.eq_zero_or_pos j
  · obtain rfl | hk := Nat.eq_zero_or_pos k
    · exact le_rfl
    · simpa using (gridValue_pos hk).le
  · by_contra hlt
    have hk := hj.trans_le h
    have hle := packedMagnitude_mono (m := m) (e := e) (gridValue_pos hk) (not_le.1 hlt).le
    rw [packedMagnitude_gridValue hk, packedMagnitude_gridValue hj] at hle
    exact hlt (le_antisymm h hle ▸ le_rfl)

theorem encodeNum_fin (q : Rat) (m e : Nat) : encodeNum (.fin q) m e =
    numberBits (decide (q < 0)) (min (packedMagnitude (absRat q) m e) (infinityNumber m e)) m e := by
  by_cases h : infinityNumber m e ≤ packedMagnitude (absRat q) m e
  · rw [min_eq_right h, ← infBits_eq_numberBits]
    exact if_pos h
  · rw [min_eq_left (not_le.1 h).le]
    exact if_neg h

theorem absRat_signFactor_mul (ha : 0 < a) : absRat (signFactor s * a) = a := by
  rw [absRat_eq, abs_mul, abs_of_pos ha]
  cases s <;> simp [signFactor]

theorem decide_signFactor_mul_neg (ha : 0 < a) : decide (signFactor s * a < 0) = s := by
  cases s <;> simp [signFactor, ha, ha.le]

/-- Every `K` up to the infinity's survives decoding and encoding. -/
theorem encodeNum_withSign_magnitude (hk : k ≤ infinityNumber m e) :
    encodeNum (withSign s (magnitude m e k)) m e = numberBits s k m e := by
  unfold magnitude
  split_ifs with hzero hinf
  · rw [hzero, ← zeroBits_eq_numberBits, withSign_zero]; rfl
  · rw [le_antisymm hk hinf, ← infBits_eq_numberBits, withSign_inf]; rfl
  · have hpos := Nat.pos_of_ne_zero hzero
    have hg := gridValue_pos (m := m) (e := e) hpos
    rw [withSign_fin, encodeNum_fin, absRat_signFactor_mul hg, decide_signFactor_mul_neg hg,
      packedMagnitude_gridValue hpos, min_eq_left hk]

theorem encodeNum_decodeNum (he : 1 ≤ e) (hb : b.length = m + e + 1) (h : decodeNum b m e ≠ .nan) :
    encodeNum (decodeNum b m e) m e = b := by
  have hk := (decodeNum_eq_nan_or he hb).resolve_left h
  rw [decodeNum_eq_magnitude he hb hk, encodeNum_withSign_magnitude hk]
  exact (eq_numberBits hb rfl rfl).symm

/-- Settles O13: an array that is no NaN is a sign and a `K`, and rounding gives back the `K` of a grid rational. -/
theorem codecRoundTrip : Obligations.CodecRoundTrip := by
  intro b m e hm he hb
  refine ⟨?_, encodeNum_decodeNum he hb, fun h => by rw [h]; rfl⟩
  by_cases h : decodeNum b m e = .nan
  · rw [h]
    exact decodeNum_canonicalNaN hm he
  · rw [encodeNum_decodeNum he hb h]

/-- Settles O12: `floorlog2` and `rne` are the only numbers with the properties R14 gives them. -/
theorem encodeFollowsTheRule : Obligations.EncodeFollowsTheRule := by
  intro m e _ _
  refine ⟨rfl, fun _ => rfl, fun _ => rfl, fun q E n hq hE hn => ?_⟩
  obtain ⟨hlow, hhigh⟩ := hE
  obtain ⟨hdist, htie⟩ := hn
  rw [← pow2_eq] at hlow hhigh hdist htie
  have hlog : floorlog2 (absRat q) = E := absRat_eq q ▸ floorlog2_unique hlow hhigh
  have hround : rne (absRat q / pow2 (max E (emin e) - m)) = n :=
    absRat_eq q ▸ rne_unique (div_nonneg (abs_nonneg q) (pow2_pos _).le) hdist htie
  have hk : packedMagnitude (absRat q) m e = (max E (emin e) - emin e).toNat * 2 ^ m + n := by
    rw [packedMagnitude_eq, gridExp, hlog, hround]
  simp only [← hk]
  rfl

/-! ### The order -/

/-- The extended real of an array that is no NaN. The zeros stand with the rationals: the 0-th of the grid is 0. -/
theorem num_withSign_magnitude (he : 1 ≤ e) : num (withSign s (magnitude m e k)) =
    some (if infinityNumber m e ≤ k then (if s then .negInf else .posInf)
      else .rat (signFactor s * gridValue m e k)) := by
  unfold magnitude
  split_ifs with hzero hinf hs hinf hs
  · exact absurd (hzero ▸ hinf) (infinityNumber_pos he).not_ge
  · exact absurd (hzero ▸ hinf) (infinityNumber_pos he).not_ge
  · simp [hzero, num]
  · simp [hs, num]
  · simp [hs, num]
  · simp [num]

theorem gridValue_nonneg (m e k : Nat) : 0 ≤ gridValue m e k := gridValue_zero ▸ gridValue_mono (Nat.zero_le k)

theorem vle_magnitude (he : 1 ≤ e) (h : j ≤ k) :
    vle (withSign false (magnitude m e j)) (withSign false (magnitude m e k)) = true := by
  simp only [vle, ordered, num_withSign_magnitude he, Bool.false_eq_true, if_false]
  split_ifs with hj hk hk
  · rfl
  · exact absurd (hj.trans h) hk
  · rfl
  · simpa [ExtReal.le, signFactor] using gridValue_mono h

theorem vle_neg_magnitude (he : 1 ≤ e) (h : j ≤ k) :
    vle (withSign true (magnitude m e k)) (withSign true (magnitude m e j)) = true := by
  simp only [vle, ordered, num_withSign_magnitude he, if_true]
  split_ifs with hk hj hj
  · rfl
  · rfl
  · exact absurd (hj.trans h) hk
  · simpa [ExtReal.le, signFactor] using gridValue_mono h

theorem vle_neg_magnitude_magnitude (he : 1 ≤ e) (j k : Nat) :
    vle (withSign true (magnitude m e j)) (withSign false (magnitude m e k)) = true := by
  have hsum : -gridValue m e j ≤ gridValue m e k := by
    linarith [gridValue_nonneg m e j, gridValue_nonneg m e k]
  simp only [vle, ordered, num_withSign_magnitude he, Bool.false_eq_true, if_false, if_true]
  split_ifs with hj hk hk
  · rfl
  · rfl
  · rfl
  · simpa [ExtReal.le, signFactor] using hsum

/-- Settles O14: the larger magnitude rounds to the larger `K`, and the `K` order the values of one sign. -/
theorem encodeIsMonotone : Obligations.EncodeIsMonotone := by
  intro m e q1 q2 _ he h1 h2 h
  rw [encodeNum_fin, encodeNum_fin, decodeNum_numberBits he (min_le_right _ _),
    decodeNum_numberBits he (min_le_right _ _)]
  obtain hq1 | hq1 := lt_or_ge q1 0
  · obtain hq2 | hq2 := lt_or_ge q2 0
    · have habs : absRat q2 ≤ absRat q1 := by rw [absRat_eq, absRat_eq]; exact abs_le_abs_of_nonpos hq2.le h
      rw [decide_eq_true hq1, decide_eq_true hq2]
      exact vle_neg_magnitude he (min_le_min_right _ (packedMagnitude_mono (absRat_pos h2) habs))
    · rw [decide_eq_true hq1, decide_eq_false hq2.not_gt]
      exact vle_neg_magnitude_magnitude he _ _
  · have habs : absRat q1 ≤ absRat q2 := by rw [absRat_eq, absRat_eq]; exact abs_le_abs_of_nonneg hq1 h
    rw [decide_eq_false hq1.not_gt, decide_eq_false (hq1.trans h).not_gt]
    exact vle_magnitude he (min_le_min_right _ (packedMagnitude_mono (absRat_pos h1) habs))

end Sys2Proof.Machine

/-! The codec commands (40_codec.md R84 to R102). Each command has its word and one equation for what it answers on a
register that holds an instance; R104, R105 and the crossing at the host's shape run those equations in turn. -/

namespace Sys2Proof

/-! ### The words of the formats the codec uses -/

theorem assemble_fieldsD (o : Nat) (rd : Reg) :
    assemble o (fieldsD rd) = BitVec.ofNat 32 (o * 2 ^ 24 + rd.val * 0x100000) := by
  simp [assemble, fieldsD]

theorem assemble_fieldsDF (o : Nat) (rd : Reg) (f : Bool) :
    assemble o (fieldsDF rd f) = BitVec.ofNat 32 (o * 2 ^ 24 + rd.val * 0x100000 + f.toNat) := by
  simp [assemble, fieldsDF]

theorem assemble_fieldsS (o : Nat) (rs1 : Reg) :
    assemble o (fieldsS rs1) = BitVec.ofNat 32 (o * 2 ^ 24 + rs1.val * 0x10000) := by
  simp [assemble, fieldsS]

end Sys2Proof

namespace Sys2Proof.Machine

variable {s t : State} {i : Instr} {r rd : Reg} {n : Instance} {f : Bool} {b d : Bits}

/-! ### The common checks, passed and failed -/

theorem withSource_of_holds (h : s.holds r n) (body : Instance → Result) : withSource s [r] r body = body n := by
  obtain ⟨hr, hn⟩ := h
  simp [withSource, State.hasReg, hr, hn]

theorem withDest_of_lt (hr : rd.val < s.params.nreg) (body : Result) : withDest s rd body = body :=
  if_pos (decide_eq_true hr)

theorem withWidths_of_legal (hw : LegalWidths s.params s.ports.a s.ports.b) (body : Result) :
    withWidths s body = body :=
  if_pos ((widthsOk_iff _ _ _).2 hw)

theorem withWidths_of_not_legal (hw : ¬ LegalWidths s.params s.ports.a s.ports.b) (body : Result) :
    withWidths s body = .next (s.raised .configurationError) :=
  if_neg (mt (widthsOk_iff _ _ _).1 hw)

/-- A register that was written holds what was written. -/
theorem holds_written (hr : r.val < s.params.nreg) (hl : r.val < s.regs.length) (n : Instance) :
    (s.written r n).holds r n :=
  ⟨hr, setInst_inst_same s r n hl⟩

theorem holds_rewritten (h : s.holds r n) (k : Instance) : (s.written r k).holds r k := by
  obtain ⟨hr, hn⟩ := h
  exact holds_written hr (inst_lt_length hn) k

/-- What the invariant says of a held instance (10_state.md R21). -/
theorem holds_wf (hs : s.wf = true) (h : s.holds r n) :
    LegalWidths s.params n.ml n.el ∧ n.bits.length = n.ml + n.el + 1 := by
  obtain ⟨-, hn⟩ := h
  exact (instance_wf_iff _ n).1 (wf_inst hs hn)

/-! ### Constructors -/

theorem exec_new (hr : rd.val < s.params.nreg) (hw : LegalWidths s.params s.ports.a s.ports.b) :
    exec (.new rd) s = .next (s.written rd
      { ml := s.ports.a, el := s.ports.b, bits := List.replicate (s.ports.a + s.ports.b + 1) false }) :=
  (withDest_of_lt hr _).trans (withWidths_of_legal hw _)

theorem exec_newv (hr : rd.val < s.params.nreg) (hw : LegalWidths s.params s.ports.a s.ports.b) :
    exec (.newv rd) s = .next (s.written rd (instanceOf (fromHost s.params s.ports.v) s.ports.a s.ports.b)) :=
  (withDest_of_lt hr _).trans (withWidths_of_legal hw _)

/-- Settles O17: both checks pass and the instance of zeros is written, or the width check fails. -/
theorem newConstructsPositiveZero : Obligations.NewConstructsPositiveZero := fun _ rd hr =>
  ⟨assemble_fieldsD 0x10 rd, exec_new hr,
    fun hw => (withDest_of_lt hr _).trans (withWidths_of_not_legal hw _)⟩

/-- Settles O18: as for NEW, with the instance that holds the host's value. -/
theorem newvEncodesTheHostValue : Obligations.NewvEncodesTheHostValue := fun _ rd hr =>
  ⟨assemble_fieldsD 0x11 rd, exec_newv hr,
    fun hw => (withDest_of_lt hr _).trans (withWidths_of_not_legal hw _)⟩

/-! ### Reads -/

theorem exec_getval (h : s.holds r n) : exec (.getval r) s = .next (s.answered (.real (toHost s.params n.val))) :=
  withSource_of_holds h _

/-- Settles O19: the payload is the encoded value, and the encoder has one array for a NaN. -/
theorem getvalReturnsTheDecodedValue : Obligations.GetvalReturnsTheDecodedValue := by
  intro s r n h
  refine ⟨assemble_fieldsS 0x12 r, exec_getval h, fun hnan => ?_⟩
  have hval : n.val = .nan := hnan
  rw [exec_getval h, hval]
  rfl

/-- Settles O20: each read answers its field, and the length is R21. -/
theorem lengthReads : Obligations.LengthReads := by
  intro s r n hs h
  obtain ⟨-, hlen⟩ := holds_wf hs h
  refine ⟨assemble_fieldsS 0x13 r, assemble_fieldsS 0x14 r, assemble_fieldsS 0x15 r, withSource_of_holds h _,
    withSource_of_holds h _, withSource_of_holds h _, ?_⟩
  rw [hlen]
  exact withSource_of_holds h _

theorem exec_getbits (h : s.holds r n) : exec (.getbits r) s = .next (s.answered (.seq n.bits)) :=
  withSource_of_holds h _

/-- Settles O21: the payload is the array held. -/
theorem getbitsReturnsTheArray : Obligations.GetbitsReturnsTheArray := fun _ r _ h =>
  ⟨assemble_fieldsS 0x16 r, exec_getbits h⟩

/-! ### Field writes -/

theorem setField_of_length {start width : Nat} (hd : s.ports.d.length = width) :
    setField s r n start width = .next (s.written r { n with bits := replaceField n.bits start s.ports.d }) :=
  if_pos hd

theorem setField_of_length_ne {start width : Nat} (hd : s.ports.d.length ≠ width) :
    setField s r n start width = .next (s.raised .lengthMismatch) :=
  if_neg hd

/-- A field that ends where the array ends leaves only what stands before it. -/
theorem replaceField_suffix {start : Nat} (h : b.length ≤ start + d.length) :
    replaceField b start d = b.take start ++ d := by
  rw [replaceField, List.drop_eq_nil_of_le h, List.append_nil]

theorem exec_setmant (h : s.holds r n) (hl : n.bits.length = n.ml + n.el + 1) (hd : s.ports.d.length = n.ml) :
    exec (.setmant r) s = .next (s.written r { n with bits := n.bits.take (n.el + 1) ++ s.ports.d }) := by
  rw [← replaceField_suffix (show n.bits.length ≤ n.el + 1 + s.ports.d.length by omega)]
  exact (withSource_of_holds h _).trans (setField_of_length hd)

theorem exec_setexp (h : s.holds r n) (hd : s.ports.d.length = n.el) :
    exec (.setexp r) s =
      .next (s.written r { n with bits := n.bits.take 1 ++ s.ports.d ++ n.bits.drop (n.el + 1) }) := by
  have hbits : replaceField n.bits 1 s.ports.d = n.bits.take 1 ++ s.ports.d ++ n.bits.drop (n.el + 1) := by
    rw [replaceField, hd, Nat.add_comm 1]
  rw [← hbits]
  exact (withSource_of_holds h _).trans (setField_of_length hd)

theorem exec_setsign (h : s.holds r n) (f : Bool) :
    exec (.setsign r f) s = .next (s.written r { n with bits := f :: n.bits.tail }) := by
  rw [← List.drop_one]
  exact withSource_of_holds h _

/-- Settles O22: the mantissa is the last field of an array of the right length. -/
theorem setmantReplacesTheMantissa : Obligations.SetmantReplacesTheMantissa := by
  intro s r n hs h
  obtain ⟨-, hl⟩ := holds_wf hs h
  exact ⟨assemble_fieldsD 0x17 r, exec_setmant h hl,
    fun hd => (withSource_of_holds h _).trans (setField_of_length_ne hd)⟩

/-- Settles O23: the exponent field stands at index 1 and is as long as D. -/
theorem setexpReplacesTheExponent : Obligations.SetexpReplacesTheExponent := fun _ r _ h =>
  ⟨assemble_fieldsD 0x18 r, exec_setexp h,
    fun hd => (withSource_of_holds h _).trans (setField_of_length_ne hd)⟩

/-- Settles O24: a field of one bit at index 0. -/
theorem setsignReplacesTheSign : Obligations.SetsignReplacesTheSign := fun _ r f _ h =>
  ⟨assemble_fieldsDF 0x19 r f, exec_setsign h f⟩

/-! ### Special values -/

theorem exec_setzero (h : s.holds r n) (f : Bool) :
    exec (.setzero r f) s = .next (s.written r { n with bits := zeroBits f n.ml n.el }) :=
  withSource_of_holds h _

theorem exec_setnan (h : s.holds r n) (f : Bool) :
    exec (.setnan r f) s = .next (s.written r { n with bits := nanBits f n.ml n.el }) :=
  withSource_of_holds h _

theorem exec_setinf (h : s.holds r n) (f : Bool) :
    exec (.setinf r f) s = .next (s.written r { n with bits := infBits f n.ml n.el }) :=
  withSource_of_holds h _

/-- Settles O26: the three patterns, written out. -/
theorem specialSettersForceTheBits : Obligations.SpecialSettersForceTheBits := by
  intro s r f n h
  refine ⟨assemble_fieldsDF 0x24 r f, assemble_fieldsDF 0x25 r f, assemble_fieldsDF 0x26 r f, exec_setzero h f, ?_,
    exec_setinf h f⟩
  rw [exec_setnan h f]
  simp [nanBits, rep]

/-! ### Predicates -/

/-- The four predicates of a register, from the sign and the fields of what it holds. -/
theorem exec_predicates {x y : Nat} (h : s.holds r n) (hf : signOf n.bits = f) (hx : expField n.bits n.el = x)
    (hy : mantField n.bits n.ml n.el = y) :
    exec (.iszero r) s = .next (s.answered (.bool (x == 0 && y == 0))) ∧
      exec (.isnan r) s = .next (s.answered (.bool (x == efmax n.el && y != 0))) ∧
      exec (.isinf r) s = .next (s.answered (.bool (x == efmax n.el && y == 0))) ∧
      exec (.ispos r) s = .next (s.answered (.bool (!f))) := by
  subst hf hx hy
  exact ⟨withSource_of_holds h _, withSource_of_holds h _, withSource_of_holds h _, withSource_of_holds h _⟩

/-- The four predicates of a register right after its bits were replaced. -/
theorem exec_predicates_rewritten {x y : Nat} (h : s.holds r n) (hf : signOf b = f) (hx : expField b n.el = x)
    (hy : mantField b n.ml n.el = y) (ht : t = s.written r { n with bits := b }) :
    exec (.iszero r) t = .next (t.answered (.bool (x == 0 && y == 0))) ∧
      exec (.isnan r) t = .next (t.answered (.bool (x == efmax n.el && y != 0))) ∧
      exec (.isinf r) t = .next (t.answered (.bool (x == efmax n.el && y == 0))) ∧
      exec (.ispos r) t = .next (t.answered (.bool (!f))) :=
  exec_predicates (n := { n with bits := b }) (ht ▸ holds_rewritten h _) hf hx hy

/-- An array packs as the repetition of one bit exactly when every bit is that one. -/
theorem pack_eq_pack_rep_iff (x : Bool) : pack b = pack (rep x b.length) ↔ ∀ y ∈ b, y = x := by
  constructor
  · intro h
    exact (List.eq_replicate_iff.1 (pack_inj (rep_length x _).symm h)).2
  · intro h
    exact congrArg pack (List.eq_replicate_iff.2 ⟨rfl, h⟩)

theorem pack_eq_zero_iff : pack b = 0 ↔ ∀ y ∈ b, y = false := by
  rw [← pack_eq_pack_rep_iff, pack_rep_false]

theorem pack_eq_efmax_iff : pack b = efmax b.length ↔ ∀ y ∈ b, y = true := by
  have hones : pack (rep true b.length) = efmax b.length := by
    have := pack_rep_true b.length
    have := efmax_add_one b.length
    omega
  rw [← pack_eq_pack_rep_iff, hones]

theorem pack_beq_zero (b : Bits) : (pack b == 0) = b.all (· == false) := by
  rw [Bool.eq_iff_iff, beq_iff_eq, pack_eq_zero_iff]
  simp

theorem pack_bne_zero (b : Bits) : (pack b != 0) = b.any (· == true) := by
  rw [bne, pack_beq_zero, List.not_all_eq_any_not]
  simp

theorem pack_beq_efmax (b : Bits) : (pack b == efmax b.length) = b.all (· == true) := by
  rw [Bool.eq_iff_iff, beq_iff_eq, pack_eq_efmax_iff]
  simp

/-- Settles O25: a field is 0 when its bits are all 0, and `EFMAX` when they are all 1. -/
theorem predicatesReadTheBits : Obligations.PredicatesReadTheBits := by
  intro s r n hs h ex ma
  obtain ⟨-, hl⟩ := holds_wf hs h
  have hx : expField n.bits n.el = pack ex := rfl
  have hex : efmax n.el = efmax ex.length := congrArg efmax (expBits_length hl).symm
  have hy : mantField n.bits n.ml n.el = pack ma := by
    rw [mantField, mantBits, List.take_of_length_le (by simp; omega)]
  obtain ⟨hzero, hnan, hinf, hpos⟩ := exec_predicates h rfl hx hy
  rw [hex, pack_beq_efmax, pack_bne_zero] at hnan
  rw [hex, pack_beq_efmax, pack_beq_zero] at hinf
  rw [pack_beq_zero, pack_beq_zero] at hzero
  refine ⟨assemble_fieldsS 0x20 r, assemble_fieldsS 0x21 r, assemble_fieldsS 0x22 r, assemble_fieldsS 0x23 r,
    hzero, hnan, hinf, ?_⟩
  rw [hpos, beq_false]
  rfl

/-- Settles O27: a setter writes a pattern of known fields, and the predicates read those. -/
theorem forcedValuesAreSeenAtOnce : Obligations.ForcedValuesAreSeenAtOnce := by
  intro s r f n hs h
  obtain ⟨⟨hm, he, -⟩, -⟩ := holds_wf hs h
  have hmax : efmax n.el ≠ 0 := (efmax_pos he).ne'
  refine ⟨⟨_, exec_setzero h f, ?_⟩, ⟨_, exec_setnan h f, ?_⟩, ⟨_, exec_setinf h f, ?_⟩, ⟨_, exec_setsign h f, ?_⟩⟩
  · obtain ⟨hf, hx, hy⟩ := fields_zeroBits f n.ml n.el
    simpa [beq_false_of_ne hmax.symm] using exec_predicates_rewritten h hf hx hy rfl
  · obtain ⟨hf, hx, hy⟩ := fields_nanBits f n.el hm
    have htop : 2 ^ (n.ml - 1) ≠ 0 := (Nat.two_pow_pos _).ne'
    simpa [bne, beq_false_of_ne hmax, beq_false_of_ne htop] using exec_predicates_rewritten h hf hx hy rfl
  · obtain ⟨hf, hx, hy⟩ := fields_infBits f n.ml n.el
    simpa [bne, beq_false_of_ne hmax] using exec_predicates_rewritten h hf hx hy rfl
  · obtain ⟨-, -, -, hpos⟩ := exec_predicates_rewritten (f := f) (b := f :: n.bits.tail) h rfl rfl rfl rfl
    exact hpos

/-! ### Runs and the host's shape -/

/-- A run takes a presented command of the engine by executing it. -/
theorem run_command {p : Ports} {rest : List HostEvent} (h : s.inbox = .command ⟨encode i, p⟩ :: rest)
    (hex : exec i { s with inbox := rest, ports := p } = .next t) (k : Nat) :
    Host.Core.run Sys2Proof.core (k + 1) s = Host.Core.run Sys2Proof.core k t := by
  have hstep : Sys2Proof.core.step s = .next t :=
    (step_of_command h).trans ((runCommand_of_ok (decode_encode i)).trans hex)
  simp only [Host.Core.run, hstep]

/-- The state in which a presented command executes holds what the state before held. -/
theorem holds_presented (h : s.holds r n) (p : Ports) (rest : List HostEvent) :
    State.holds { s with inbox := rest, ports := p } r n := h

/-- A run takes a presented command that writes a register: the register then holds what was written. -/
theorem run_write {p : Ports} {rest : List HostEvent} (hin : s.inbox = .command ⟨encode i, p⟩ :: rest)
    (hr : r.val < s.params.nreg) (hl : r.val < s.regs.length)
    (hex : exec i { s with inbox := rest, ports := p } =
      .next (State.written { s with inbox := rest, ports := p } r n)) :
    ∃ t : State, t.inbox = rest ∧ t.holds r n ∧
      ∀ k, Host.Core.run Sys2Proof.core (k + 1) s = Host.Core.run Sys2Proof.core k t :=
  ⟨_, rfl, holds_written (s := { s with inbox := rest, ports := p }) hr hl n, run_command hin hex⟩

theorem run_rewrite {p : Ports} {rest : List HostEvent} {n' : Instance}
    (hin : s.inbox = .command ⟨encode i, p⟩ :: rest) (h : s.holds r n)
    (hex : exec i { s with inbox := rest, ports := p } =
      .next (State.written { s with inbox := rest, ports := p } r n')) :
    ∃ t : State, t.inbox = rest ∧ t.holds r n' ∧
      ∀ k, Host.Core.run Sys2Proof.core (k + 1) s = Host.Core.run Sys2Proof.core k t := by
  obtain ⟨hr, hn⟩ := h
  exact run_write hin hr (inst_lt_length hn) hex

/-- Settles O28: zeros, then the exponent field, the mantissa field and the sign, and the array is read. -/
theorem directBitSetting : Obligations.DirectBitSetting := by
  intro s r v hs hr hw hin
  obtain ⟨-, hlen, -⟩ := (wf_iff s).1 hs
  obtain ⟨s₁, hin₁, h₁, hrun₁⟩ := run_write hin hr (hlen ▸ hr) (exec_new hr hw)
  change s₁.holds r ⟨4, 2, [false, false, false, false, false, false, false]⟩ at h₁
  obtain ⟨s₂, hin₂, h₂, hrun₂⟩ := run_rewrite hin₁ h₁ (exec_setexp (holds_presented h₁ _ _) rfl)
  change s₂.holds r ⟨4, 2, [false, true, false, false, false, false, false]⟩ at h₂
  obtain ⟨s₃, hin₃, h₃, hrun₃⟩ := run_rewrite hin₂ h₂ (exec_setmant (holds_presented h₂ _ _) rfl rfl)
  change s₃.holds r ⟨4, 2, [false, true, false, true, true, false, true]⟩ at h₃
  obtain ⟨s₄, hin₄, h₄, hrun₄⟩ := run_rewrite hin₃ h₃ (exec_setsign (holds_presented h₃ _ _) false)
  rw [hrun₁, hrun₂, hrun₃, hrun₄, run_command hin₄ (exec_getbits (holds_presented h₄ _ _))]
  exact ⟨_, rfl, rfl⟩

/-- Settles O29: R103 at the host's shape. -/
theorem hostShapeCrossesUnchanged : Obligations.HostShapeCrossesUnchanged := by
  intro s r hs hr
  refine ⟨fun ha hb hw hv => ?_, fun n hn hml hel hv => ?_⟩
  · have ⟨_, he, _⟩ := hw
    rw [exec_newv hr hw, ha, hb, instanceOf, fromHost,
      encodeNum_decodeNum (hb ▸ he) (hostBits_length s.params s.ports.v) hv]
  · obtain ⟨⟨-, he, -⟩, hl⟩ := holds_wf hs ⟨hr, hn⟩
    rw [exec_getval ⟨hr, hn⟩, toHost, ← hml, ← hel, Instance.val, encodeNum_decodeNum he hl hv]

end Sys2Proof.Machine

/-! How close the encoder's rounding comes to the exact result (41_arithmetic.md R140, 40_codec.md R82). At the exponent
`emin + d` of a rational `a` the grid has steps of `u = 2^(emin + d - m)`; the encoder takes the nearest number `n` of
steps, and every rational of the grid is a number of those steps or lies below `2^m` of them, which is at most `a`. -/

namespace Sys2Proof.Machine

variable {b : Bits} {m e d k n : Nat} {s : Bool} {a q x : Rat}

/-! ### Rounding as a number of steps -/

/-- `rne` is a nearest natural number. -/
theorem rne_nearest (hx : 0 ≤ x) (c : Nat) : |(rne x : Rat) - x| ≤ |(c : Rat) - x| := by
  obtain ⟨hdist, -⟩ := rne_spec hx
  rw [abs_sub_comm] at hdist
  obtain h | h | h := lt_trichotomy c (rne x)
  · have : (c : Rat) + 1 ≤ rne x := by exact_mod_cast h
    linarith [neg_abs_le ((rne x : Rat) - x), neg_abs_le ((c : Rat) - x), le_abs_self ((rne x : Rat) - x)]
  · rw [h]
  · have : (rne x : Rat) + 1 ≤ c := by exact_mod_cast h
    linarith [neg_abs_le ((rne x : Rat) - x), le_abs_self ((c : Rat) - x)]

/-- Half a step below an even number of steps the tie goes up. -/
theorem rne_sub_half (hn : 0 < n) (heven : n % 2 = 0) : rne ((n : Rat) - 1 / 2) = n := by
  have hone : (1 : Rat) ≤ n := by exact_mod_cast hn
  refine rne_unique (by linarith) ?_ fun _ => heven
  rw [sub_sub_cancel_left, abs_neg, abs_of_pos (by norm_num)]

/-- What the encoder rounds a positive rational to: `n` steps at the exponent `emin + d`, with `2^m` to `2^(m+1)` steps
unless the exponent is the smallest. -/
theorem packedMagnitude_eq_steps (m e : Nat) (ha : 0 < a) : ∃ d n : Nat,
    n = rne (a / pow2 (emin e + d - m)) ∧ packedMagnitude a m e = d * 2 ^ m + n ∧ n ≤ 2 ^ (m + 1) ∧
      (d = 0 ∨ 2 ^ m ≤ n ∧ (2 ^ m : Nat) * pow2 (emin e + d - m) ≤ a) := by
  obtain ⟨d, hd⟩ := Int.le.dest (emin_le_gridExp a e)
  have hp : 0 < pow2 (emin e + d - m) := pow2_pos _
  have hpos : 0 ≤ a / pow2 (emin e + d - m) := div_nonneg ha.le hp.le
  refine ⟨d, _, rfl, ?_, ?_, (Nat.eq_zero_or_pos d).imp_right fun hd0 => ?_⟩
  · rw [packedMagnitude_eq, ← hd, add_sub_cancel_left, Int.toNat_natCast]
  · rw [← rne_natCast (2 ^ (m + 1))]
    refine rne_mono hpos ((div_le_iff₀ hp).2 ?_)
    rw [← pow2_eq_steps, hd]
    exact (lt_pow2_gridExp ha).le
  · have hlow : (2 ^ m : Nat) * pow2 (emin e + d - m) ≤ a := by
      have hsteps := pow2_eq_steps (emin e + d) m 0
      rw [Nat.cast_zero, add_zero, add_zero] at hsteps
      rw [← hsteps, hd]
      exact pow2_gridExp_le ha (by omega)
    refine ⟨?_, hlow⟩
    rw [← rne_natCast (2 ^ m)]
    exact rne_mono (by positivity) ((le_div_iff₀ hp).2 hlow)

/-! ### The grid as numbers of steps -/

/-- The rational of the grid that `n` steps of the exponent `emin + d` make. -/
theorem gridValue_of_steps (hn : n ≤ 2 ^ (m + 1)) (hge : d = 0 ∨ 2 ^ m ≤ n) :
    gridValue m e (d * 2 ^ m + n) = n * pow2 (emin e + d - m) := by
  have htwo := Nat.two_pow_pos m
  rw [pow_succ] at hn
  obtain hlt | hge' := lt_or_ge n (2 ^ m)
  · obtain rfl : d = 0 := hge.resolve_right (by omega)
    simp [gridValue, hlt, Nat.div_eq_of_lt hlt]
  · obtain ⟨r, rfl⟩ := Nat.exists_eq_add_of_le hge'
    have hk : d * 2 ^ m + (2 ^ m + r) = r + (d + 1) * 2 ^ m := by ring
    have hnot : ¬ r + (d + 1) * 2 ^ m < 2 ^ m := by rw [← hk]; omega
    rw [hk, gridValue, if_neg hnot, Nat.add_mul_div_right _ _ htwo, Nat.add_mul_mod_self_right]
    obtain hr | hr := lt_or_ge r (2 ^ m)
    · simp [Nat.div_eq_of_lt hr, Nat.mod_eq_of_lt hr]
    · obtain rfl : r = 2 ^ m := by omega
      have hdouble : pow2 (emin e + (d + 1 : Nat) - m) = 2 * pow2 (emin e + d - m) := by
        have := pow2_eq_steps (emin e + d - m) 0 1
        rw [← add_sub_right_comm] at this
        simpa [add_assoc] using this
      have hexp : 2 ^ m / 2 ^ m + (d + 1) - 1 = d + 1 := by rw [Nat.div_self htwo]; omega
      rw [hexp, hdouble, Nat.mod_self]
      push_cast
      ring

/-- From the exponent `emin + d` on, every rational of the grid is a number of its steps. -/
theorem gridValue_eq_steps (h : d ≤ k / 2 ^ m - 1) : ∃ c : Nat, gridValue m e k = c * pow2 (emin e + d - m) := by
  obtain ⟨t, ht⟩ := Nat.exists_eq_add_of_le h
  have hsteps : pow2 (emin e + (d + t : Nat) - m) = (2 ^ t : Nat) * pow2 (emin e + d - m) := by
    rw [← pow2_natCast, ← pow2_add]
    congr 1
    push_cast
    ring
  refine ⟨(if k < 2 ^ m then k else 2 ^ m + k % 2 ^ m) * 2 ^ t, ?_⟩
  rw [gridValue, ht, hsteps, Nat.cast_mul, mul_assoc]

/-! ### Nearest -/

/-- No rational of the grid, also past the largest finite one, is nearer than the one the encoder takes. -/
theorem gridValue_packedMagnitude_nearest (ha : 0 < a) (j : Nat) :
    |gridValue m e (packedMagnitude a m e) - a| ≤ |gridValue m e j - a| := by
  obtain ⟨d, n, hn, hpack, hle, hge⟩ := packedMagnitude_eq_steps m e ha
  have hp : 0 < pow2 (emin e + d - m) := pow2_pos _
  have hnear : ∀ c : Nat, |n * pow2 (emin e + d - m) - a| ≤ |c * pow2 (emin e + d - m) - a| := by
    intro c
    have hfactor : ∀ i : Nat, |i * pow2 (emin e + d - m) - a| =
        |(i : Rat) - a / pow2 (emin e + d - m)| * pow2 (emin e + d - m) := by
      intro i
      rw [← abs_of_pos hp, ← abs_mul, abs_of_pos hp, sub_mul, div_mul_cancel₀ _ hp.ne']
    rw [hfactor, hfactor, hn]
    exact mul_le_mul_of_nonneg_right (rne_nearest (div_nonneg ha.le hp.le) c) hp.le
  rw [hpack, gridValue_of_steps hle (hge.imp_right And.left)]
  by_cases hj : d ≤ j / 2 ^ m - 1
  · obtain ⟨c, hc⟩ := gridValue_eq_steps (e := e) hj
    rw [hc]
    exact hnear c
  · obtain ⟨-, hlow⟩ : 2 ^ m ≤ n ∧ (2 ^ m : Nat) * pow2 (emin e + d - m) ≤ a := hge.resolve_left (by omega)
    have hjle : j ≤ d * 2 ^ m + 2 ^ m := by
      have hlt : j < (d + 1) * 2 ^ m := Nat.lt_mul_of_div_lt (by omega) (Nat.two_pow_pos m)
      linarith
    have hgrid : gridValue m e j ≤ (2 ^ m : Nat) * pow2 (emin e + d - m) := by
      rw [← gridValue_of_steps (by simp [pow_succ]) (.inr le_rfl)]
      exact gridValue_mono hjle
    refine (hnear (2 ^ m)).trans ?_
    rw [abs_of_nonpos (sub_nonpos.2 hlow), abs_of_nonpos (sub_nonpos.2 (hgrid.trans hlow))]
    linarith

theorem finiteNum_withSign_magnitude (he : 1 ≤ e) : finiteNum (withSign s (magnitude m e k)) =
    if infinityNumber m e ≤ k then none else some (signFactor s * gridValue m e k) := by
  unfold magnitude
  split_ifs with hzero hinf hinf
  · exact absurd (hzero ▸ hinf) (infinityNumber_pos he).not_ge
  · simp [hzero, finiteNum]
  · simp [finiteNum]
  · simp [finiteNum]

/-- The finite value that encoding a rational gives. -/
theorem finiteNum_encodeNum (he : 1 ≤ e) (h : finiteNum (decodeNum (encodeNum (.fin q) m e) m e) = some x) :
    x = signFactor (decide (q < 0)) * gridValue m e (packedMagnitude (absRat q) m e) := by
  rw [encodeNum_fin, decodeNum_numberBits he (min_le_right _ _), finiteNum_withSign_magnitude he] at h
  split_ifs at h with hinf
  rw [min_eq_left (by omega)] at h
  exact (Option.some.inj h).symm

/-- The finite value of an array is a rational of the grid, with a sign. -/
theorem abs_finiteNum_decodeNum (he : 1 ≤ e) (hb : b.length = m + e + 1)
    (h : finiteNum (decodeNum b m e) = some x) : ∃ j, |x| = gridValue m e j := by
  obtain hnan | hk := decodeNum_eq_nan_or he hb
  · rw [hnan] at h
    cases h
  · rw [decodeNum_eq_magnitude he hb hk, finiteNum_withSign_magnitude he] at h
    split_ifs at h
    refine ⟨packedFields b m e, ?_⟩
    rw [← Option.some.inj h, abs_mul, abs_of_nonneg (gridValue_nonneg m e _)]
    cases signOf b <;> simp [signFactor]

theorem signFactor_mul_absRat (q : Rat) : signFactor (decide (q < 0)) * absRat q = q := by
  unfold absRat
  split_ifs with h <;> simp [signFactor, h]

theorem abs_signFactor_mul (s : Bool) (x : Rat) : |signFactor s * x| = |x| := by cases s <;> simp [signFactor]

/-- Settles O15: a sign apart, the encoder takes a nearest rational of the grid, and every finite value lies on it. -/
theorem encodeIsNearest : Obligations.EncodeIsNearest := by
  intro m e q x y b _ he hq hx hb hy
  obtain ⟨j, hj⟩ := abs_finiteNum_decodeNum he hb hy
  calc |x - q|
      = |gridValue m e (packedMagnitude (absRat q) m e) - absRat q| := by
        have hsign := signFactor_mul_absRat q
        rw [finiteNum_encodeNum he hx, ← abs_signFactor_mul (decide (q < 0)) (_ - absRat q),
          mul_sub, hsign]
    _ ≤ |gridValue m e j - absRat q| := gridValue_packedMagnitude_nearest (absRat_pos hq) j
    _ = abs (|y| - |q|) := by rw [hj, absRat_eq]
    _ ≤ |y - q| := abs_abs_sub_abs_le y q

/-! ### Overflow -/

/-- Half a step below an even number of steps the encoder rounds up. -/
theorem packedMagnitude_of_half_step (hn : 0 < n) (heven : n % 2 = 0) (hle : n ≤ 2 ^ (m + 1))
    (hge : d = 0 ∨ 2 ^ m < n) :
    packedMagnitude (((n : Rat) - 1 / 2) * pow2 (emin e + d - m)) m e = d * 2 ^ m + n := by
  have hp : 0 < pow2 (emin e + d - m) := pow2_pos _
  have hone : (1 : Rat) ≤ n := by exact_mod_cast hn
  have hE : gridExp (((n : Rat) - 1 / 2) * pow2 (emin e + d - m)) e = emin e + d := by
    have hupper : pow2 (emin e + d + 1) = (2 ^ (m + 1) : Nat) * pow2 (emin e + d - m) := pow2_eq_steps _ m 1
    have hlower : pow2 (emin e + d) = (2 ^ m : Nat) * pow2 (emin e + d - m) := by simpa using pow2_eq_steps _ m 0
    refine gridExp_of_bounds (mul_pos (by linarith) hp) ?_ (hge.imp_right fun hge => ?_)
    · have : (n : Rat) ≤ (2 ^ (m + 1) : Nat) := Nat.cast_le.2 hle
      rw [hupper]
      exact mul_lt_mul_of_pos_right (by linarith) hp
    · have : ((2 ^ m : Nat) : Rat) + 1 ≤ n := by exact_mod_cast hge
      rw [hlower]
      exact mul_le_mul_of_nonneg_right (by linarith) hp.le
  rw [packedMagnitude_eq, hE, mul_div_cancel_right₀ _ hp.ne', rne_sub_half hn heven, add_sub_cancel_left,
    Int.toNat_natCast]

/-- An even number of steps is reached from the midpoint below it on: from there rounding is monotone, and below it the
step before is nearer. -/
theorem le_packedMagnitude_iff (ha : 0 < a) (hn : 0 < n) (heven : n % 2 = 0) (hle : n ≤ 2 ^ (m + 1))
    (hge : d = 0 ∨ 2 ^ m < n) :
    d * 2 ^ m + n ≤ packedMagnitude a m e ↔ ((n : Rat) - 1 / 2) * pow2 (emin e + d - m) ≤ a := by
  have hp : 0 < pow2 (emin e + d - m) := pow2_pos _
  have hone : (1 : Rat) ≤ n := by exact_mod_cast hn
  constructor
  · intro hk
    have hstep : n * pow2 (emin e + d - m) ≤ gridValue m e (packedMagnitude a m e) := by
      rw [← gridValue_of_steps hle (hge.imp_right le_of_lt)]
      exact gridValue_mono hk
    have hbefore : gridValue m e (d * 2 ^ m + (n - 1)) = ((n : Rat) - 1) * pow2 (emin e + d - m) := by
      rw [gridValue_of_steps (by omega) (hge.imp_right (by omega)), Nat.cast_pred hn]
    have hnear := gridValue_packedMagnitude_nearest (m := m) (e := e) ha (d * 2 ^ m + (n - 1))
    by_contra hlt
    refine hnear.not_gt ((abs_lt.2 ⟨?_, ?_⟩).trans_le (le_abs_self _))
    · linarith
    · linarith
  · intro h
    rw [← packedMagnitude_of_half_step hn heven hle hge]
    exact packedMagnitude_mono (mul_pos (by linarith) hp) h

theorem withSign_magnitude_eq_inf_iff (he : 1 ≤ e) :
    withSign s (magnitude m e k) = .inf s ↔ infinityNumber m e ≤ k := by
  unfold magnitude
  split_ifs with hzero hinf
  · simp [hzero, (infinityNumber_pos he).ne']
  · simp [hinf]
  · simp [hinf]

/-- Overflow is decided after rounding (40_codec.md R81). -/
theorem encodeNum_eq_inf_iff (he : 1 ≤ e) :
    decodeNum (encodeNum (.fin q) m e) m e = .inf (decide (q < 0)) ↔
      infinityNumber m e ≤ packedMagnitude (absRat q) m e := by
  rw [encodeNum_fin, decodeNum_numberBits he (min_le_right _ _), withSign_magnitude_eq_inf_iff he, le_min_iff,
    and_iff_left le_rfl]

/-- The infinity follows `2^(m+1)` steps of the largest exponent. -/
theorem infinityNumber_eq_steps (he : 2 ≤ e) : infinityNumber m e = (2 ^ e - 3) * 2 ^ m + 2 ^ (m + 1) := by
  have hfour : 2 ^ 2 ≤ 2 ^ e := Nat.pow_le_pow_right (by norm_num) he
  have hsum : efmax e = 2 ^ e - 3 + 2 := by rw [efmax]; omega
  rw [infinityNumber, hsum, pow_succ]
  ring

theorem emin_add_eq_emax (he : 2 ≤ e) : emin e + (2 ^ e - 3 : Nat) = emax e := by
  have hfour : 2 ^ 2 ≤ 2 ^ e := Nat.pow_le_pow_right (by norm_num) he
  rw [emin, emax, efmax]
  omega

theorem threshold_eq_steps (m : Nat) (i : Int) :
    (2 - (2 : Rat) ^ (-(m : Int) - 1)) * 2 ^ i = (((2 ^ (m + 1) : Nat) : Rat) - 1 / 2) * pow2 (i - m) := by
  have htwo : (2 : Rat) ≠ 0 := by norm_num
  rw [pow2_eq, zpow_sub₀ htwo, zpow_sub₀ htwo, zpow_neg, zpow_natCast, zpow_one]
  push_cast
  field_simp
  ring

/-- Settles O16: the infinity is an even number of steps of the largest exponent, reached from the midpoint on. -/
theorem overflowThreshold : Obligations.OverflowThreshold := by
  intro m e q hm he hq
  obtain ⟨c, rfl⟩ := Nat.exists_eq_add_of_le' hm
  rw [encodeNum_eq_inf_iff he, ← absRat_eq]
  split_ifs with hone
  · subst hone
    have hsteps : infinityNumber (c + 1) 1 = 0 * 2 ^ (c + 1) + 2 ^ (c + 1) := by simp [infinityNumber, efmax]
    rw [hsteps, le_packedMagnitude_iff (absRat_pos hq) (Nat.two_pow_pos _) (by simp [pow_succ]) (by simp [pow_succ])
      (.inl rfl)]
    simp [pow2_eq, emin, bias]
  · have he2 : 2 ≤ e := by omega
    rw [infinityNumber_eq_steps he2, le_packedMagnitude_iff (absRat_pos hq) (Nat.two_pow_pos _) (by simp [pow_succ])
      le_rfl (.inr (by simp [pow_succ])), emin_add_eq_emax he2, threshold_eq_steps]

end Sys2Proof.Machine

/-! The Arithmetic Unit (41_arithmetic.md R130 to R140). The four commands are one common body over an exact operation
(`binop`), with one equation per outcome on registers that hold instances; what they write is the exact result, rounded
once, so that laws of the exact operations become laws of the commands. -/

namespace Sys2Proof

theorem assemble_fieldsDSS (o : Nat) (rd rs1 rs2 : Reg) : assemble o (fieldsDSS rd rs1 rs2) =
    BitVec.ofNat 32 (o * 2 ^ 24 + (rd.val * 0x100000 + rs1.val * 0x10000 + rs2.val * 0x1000)) := by
  simp [assemble, fieldsDSS, Nat.add_assoc]

end Sys2Proof

namespace Sys2Proof.Machine

variable {s : State} {rd r1 r2 : Reg} {x y : Instance} {m e : Nat} {v : Val} {op : Val → Val → Val}

/-! ### The exact operations -/

/-- Settles O31: the cases of `vadd`; `vsub` is its sum with the negation. -/
theorem exactAdditionByClass : Obligations.ExactAdditionByClass := by
  refine ⟨fun v => ⟨rfl, ?_⟩, fun _ _ => rfl, fun _ _ => ⟨rfl, rfl⟩, fun _ _ => ⟨rfl, rfl⟩, fun _ _ => rfl,
    fun _ _ => ⟨rfl, rfl⟩, fun _ _ h => if_pos h, fun _ _ h => if_neg h, fun x => ?_, fun _ _ => rfl, fun _ _ => rfl,
    fun _ _ => rfl⟩
  · cases v <;> rfl
  · cases x <;> rfl

/-- Settles O32: the cases of `vmul` and `vdiv`. -/
theorem exactProductsByClass : Obligations.ExactProductsByClass := by
  refine ⟨fun v => ⟨rfl, ?_, rfl, ?_⟩, fun _ _ => ⟨rfl, rfl⟩, fun _ _ => ⟨rfl, rfl⟩, fun _ _ => ⟨rfl, ?_⟩,
    fun _ _ => ⟨rfl, ?_⟩, fun _ _ => rfl, fun _ _ => ⟨rfl, rfl⟩, fun _ _ => ⟨rfl, rfl⟩, fun _ _ => ⟨rfl, ?_⟩,
    fun _ _ => ⟨?_, rfl⟩, fun _ _ => rfl⟩
  · cases v <;> rfl
  · cases v <;> rfl
  · exact congrArg Val.inf (Bool.xor_comm _ _)
  · exact congrArg Val.zero (Bool.xor_comm _ _)
  · exact congrArg Val.zero (Bool.xor_comm _ _)
  · exact congrArg Val.inf (Bool.xor_comm _ _)

theorem vadd_comm (u v : Val) : vadd u v = vadd v u := by
  cases u with
  | nan => cases v <;> rfl
  | inf f =>
    cases v with
    | inf g => cases f <;> cases g <;> rfl
    | _ => rfl
  | zero f =>
    cases v with
    | zero g => exact congrArg Val.zero (Bool.and_comm f g)
    | _ => rfl
  | fin p =>
    cases v with
    | fin q => simp only [vadd, Rat.add_comm]
    | _ => rfl

/-- On every pair of classes, since XOR and the product are commutative. -/
theorem vmul_comm (u v : Val) : vmul u v = vmul v u := by
  cases u <;> cases v <;> simp only [vmul, Bool.xor_comm, Rat.mul_comm]

/-- `x - x` is `+0` for a finite value. -/
theorem vsub_self_of_finite (h : finiteNum v ≠ none) : vsub v v = .zero false := by
  cases v with
  | nan | inf _ => exact absurd rfl h
  | zero f => exact congrArg Val.zero (Bool.and_not_self f)
  | fin q => exact if_pos (add_neg_cancel q)

theorem vsub_self_of_not_finite (h : finiteNum v = none) : vsub v v = .nan := by
  cases v with
  | nan => rfl
  | inf f => cases f <;> rfl
  | zero _ | fin _ => cases h

theorem vdiv_self_of_fin {q : Rat} (hq : q ≠ 0) : vdiv (.fin q) (.fin q) = .fin 1 :=
  congrArg Val.fin (div_self hq)

theorem vdiv_self_of_not_fin (h : ∀ q, v ≠ .fin q) : vdiv v v = .nan := by
  cases v with
  | nan | inf _ | zero _ => rfl
  | fin q => exact absurd rfl (h q)

/-! ### The common body -/

/-- ADD to DIV are the common body of R130, each with its exact operation. -/
theorem arithmetic_eq_binop (i : Instr) (rd rs1 rs2 : Reg)
    (h : i ∈ [Instr.add rd rs1 rs2, .sub rd rs1 rs2, .mul rd rs1 rs2, .div rd rs1 rs2]) :
    ∃ op, ∀ s, exec i s = binop op rd rs1 rs2 s := by
  revert i
  simp only [List.forall_mem_cons]
  exact ⟨⟨vadd, fun _ => rfl⟩, ⟨vsub, fun _ => rfl⟩, ⟨vmul, fun _ => rfl⟩, ⟨vdiv, fun _ => rfl⟩, List.forall_mem_nil _⟩

theorem sameShape_iff : sameShape x y = true ↔ x.ml = y.ml ∧ x.el = y.el := by simp [sameShape]

section HeldOperands

variable (hrd : rd.val < s.params.nreg) (hx : s.holds r1 x) (hy : s.holds r2 y)
include hrd hx hy

theorem binop_of_holds : binop op rd r1 r2 s =
    if sameShape x y then writeOk s rd (instanceOf (op x.val y.val) x.ml x.el)
    else .next (s.raise .precisionMismatch) := by
  obtain ⟨hr1, hn1⟩ := hx
  obtain ⟨hr2, hn2⟩ := hy
  simp [binop, withSources, State.hasReg, hrd, hr1, hr2, hn1, hn2]

theorem binop_of_shape_eq (h : x.ml = y.ml ∧ x.el = y.el) :
    binop op rd r1 r2 s = .next (s.written rd (instanceOf (op x.val y.val) x.ml x.el)) :=
  (binop_of_holds hrd hx hy).trans (if_pos (sameShape_iff.2 h))

theorem binop_of_shape_ne (h : ¬ (x.ml = y.ml ∧ x.el = y.el)) :
    binop op rd r1 r2 s = .next (s.raised .precisionMismatch) :=
  (binop_of_holds hrd hx hy).trans (if_neg (mt sameShape_iff.1 h))

end HeldOperands

/-- Settles O30: the four commands are the common body, and both outcomes of its shape check. -/
theorem arithmeticRoundsTheExactResult : Obligations.ArithmeticRoundsTheExactResult := by
  intro s rd r1 r2 x y hrd hx hy
  have heq {op : Val → Val → Val} := binop_of_shape_eq (op := op) hrd hx hy
  have hne {op : Val → Val → Val} := binop_of_shape_ne (op := op) hrd hx hy
  exact ⟨assemble_fieldsDSS 0x30 rd r1 r2, assemble_fieldsDSS 0x31 rd r1 r2, assemble_fieldsDSS 0x32 rd r1 r2,
    assemble_fieldsDSS 0x33 rd r1 r2, fun h => ⟨heq h, heq h, heq h, heq h⟩, fun h => ⟨hne h, hne h, hne h, hne h⟩⟩

/-! ### Laws of the commands -/

theorem sameShape_comm (x y : Instance) : sameShape x y = sameShape y x := by
  simp only [sameShape, eq_comm]

/-- A commutative exact operation gives a commutative command: the checks look at the same registers, and the operands
that pass them have one shape. -/
theorem binop_comm (hop : ∀ u v, op u v = op v u) (rd r1 r2 : Reg) (s : State) :
    binop op rd r1 r2 s = binop op rd r2 r1 s := by
  have hused : [rd, r1, r2].all s.hasReg = [rd, r2, r1].all s.hasReg := by
    simp [Bool.and_comm (s.hasReg r1)]
  unfold binop withSources
  rw [hused]
  cases s.inst r1 with
  | none => cases s.inst r2 <;> rfl
  | some x =>
    cases s.inst r2 with
    | none => rfl
    | some y =>
      simp only [sameShape_comm y x, hop y.val x.val]
      split_ifs with hall hshape
      · obtain ⟨hml, hel⟩ := sameShape_iff.1 hshape
        rw [hml, hel]
      · rfl
      · rfl

/-- Settles O34: exact addition and multiplication are commutative. -/
theorem addAndMulCommute : Obligations.AddAndMulCommute := fun s rd r1 r2 =>
  ⟨binop_comm vadd_comm rd r1 r2 s, binop_comm vmul_comm rd r1 r2 s⟩

/-- What the encoder writes is the canonical NaN, or an array whose `K` is at most the infinity's. -/
theorem encodeNum_eq_canonicalNaN_or (v : Val) (m e : Nat) : encodeNum v m e = canonicalNaN m e ∨
    ∃ f k, k ≤ infinityNumber m e ∧ encodeNum v m e = numberBits f k m e := by
  cases v with
  | nan => exact .inl rfl
  | inf f => exact .inr ⟨f, _, le_rfl, infBits_eq_numberBits⟩
  | zero f => exact .inr ⟨f, 0, Nat.zero_le _, zeroBits_eq_numberBits⟩
  | fin q => exact .inr ⟨_, _, min_le_right _ _, encodeNum_fin q m e⟩

/-- ISNAN sees a NaN exactly when `K` is above the infinity's. -/
theorem infinityNumber_lt_of_isNaN (h : x.isNaN = true) :
    infinityNumber x.ml x.el < packedFields x.bits x.ml x.el := by
  simp only [Instance.isNaN, Bool.and_eq_true, beq_iff_eq, bne_iff_ne] at h
  obtain ⟨hexp, hmant⟩ := h
  rw [infinityNumber, packedFields, hexp]
  omega

theorem bits_of_instanceOf_isNaN (h : (instanceOf v m e).isNaN = true) :
    (instanceOf v m e).bits = canonicalNaN m e := by
  obtain hnan | ⟨f, k, hk, hbits⟩ := encodeNum_eq_canonicalNaN_or v m e
  · exact hnan
  · have hlt : infinityNumber m e < packedFields (encodeNum v m e) m e := infinityNumber_lt_of_isNaN h
    rw [hbits, packedFields_numberBits hk] at hlt
    omega

/-- Settles O33: on OK the register holds an encoded value, and the encoder writes one NaN only. -/
theorem arithmeticNaNIsCanonical : Obligations.ArithmeticNaNIsCanonical := by
  intro s t rd r1 r2 i n _ hi h hok hn hnan
  obtain ⟨op, hop⟩ := arithmetic_eq_binop i rd r1 r2 hi
  obtain ⟨x, y, -, -, -, rfl⟩ | ⟨_, rfl⟩ := binop_next (hop s ▸ h)
  · have hrd : rd.val < s.regs.length := by simpa using inst_lt_length hn
    rw [respond_inst, setInst_inst_same s rd _ hrd] at hn
    cases hn
    rw [bits_of_instanceOf_isNaN hnan]
    simp [canonicalNaN, nanBits, rep, instanceOf]
  · cases hok

/-- The instance with its sign bit flipped, as SETSIGN of the opposite sign leaves it. -/
def Instance.flipSign (n : Instance) : Instance := { n with bits := (!signOf n.bits) :: n.bits.tail }

/-- Flipping the sign bit negates the value; a NaN stays one. -/
theorem val_flipSign (n : Instance) : n.flipSign.val = neg n.val := by
  have hs : signOf n.flipSign.bits = !signOf n.bits := rfl
  have hx : expField n.flipSign.bits n.el = expField n.bits n.el := by simp [Instance.flipSign, expField, expBits]
  have hy : mantField n.flipSign.bits n.ml n.el = mantField n.bits n.ml n.el := by
    simp [Instance.flipSign, mantField, mantBits]
  have hsign : signFactor (!signOf n.bits) = -signFactor (signOf n.bits) := by cases signOf n.bits <;> simp [signFactor]
  change decodeNum n.flipSign.bits n.ml n.el = neg (decodeNum n.bits n.ml n.el)
  simp only [decodeNum, hs, hx, hy, hsign]
  split_ifs <;> simp [neg]

theorem inst_written (h : rd.val < s.regs.length) (n : Instance) : (s.written rd n).inst rd = some n :=
  setInst_inst_same s rd n h

theorem holds_written_ne (h : s.holds r1 x) (hne : r2 ≠ r1) (n : Instance) : (s.written r2 n).holds r1 x := by
  obtain ⟨hr, hn⟩ := h
  exact ⟨hr, (setInst_inst_ne s r2 r1 n hne).trans hn⟩

/-- Settles O35: the flipped operand decodes to the negation, and `vsub` is the sum with it. -/
theorem subIsAddOfTheNegation : Obligations.SubIsAddOfTheNegation := by
  intro s rd r1 r2 x y hs hrd hne hx hy
  obtain ⟨-, hlen, -⟩ := (wf_iff s).1 hs
  have hset : exec (.setsign r2 (!signOf y.bits)) s = .next (s.written r2 y.flipSign) := exec_setsign hy _
  have hx' : (s.written r2 y.flipSign).holds r1 x := holds_written_ne hx hne.symm _
  have hy' : (s.written r2 y.flipSign).holds r2 y.flipSign := holds_rewritten hy _
  by_cases hshape : x.ml = y.ml ∧ x.el = y.el
  · refine ⟨_, _, _, hset, binop_of_shape_eq hrd hx' hy' hshape, binop_of_shape_eq hrd hx hy hshape, rfl, fun _ => ?_⟩
    have hrd' : rd.val < (s.written r2 y.flipSign).regs.length := by simpa [State.written, hlen] using hrd
    rw [inst_written hrd', inst_written (hlen ▸ hrd), val_flipSign, vsub]
  · exact ⟨_, _, _, hset, binop_of_shape_ne hrd hx' hy' hshape, binop_of_shape_ne hrd hx hy hshape, rfl,
      fun hok => by cases hok⟩

theorem zeroBits_false (m e : Nat) : zeroBits false m e = List.replicate (m + e + 1) false := by
  refine List.eq_replicate_iff.2 ⟨zeroBits_length false m e, ?_⟩
  simp [zeroBits, rep]

/-- Settles O36: `x - x` and `x / x` as exact values, rounded once. -/
theorem selfDifferenceAndQuotient : Obligations.SelfDifferenceAndQuotient := by
  intro s rd r n _ hrd h
  have hself {op : Val → Val → Val} {v : Val} (hv : op n.val n.val = v) :
      binop op rd r r s = .next (s.written rd { n with bits := encodeNum v n.ml n.el }) :=
    hv ▸ binop_of_shape_eq hrd h h ⟨rfl, rfl⟩
  refine ⟨fun hfin => ?_, fun hfin => hself (vsub_self_of_not_finite hfin), fun q hq => hself ?_,
    fun hfin => hself (vdiv_self_of_not_fin hfin)⟩
  · rw [← zeroBits_false]
    exact hself (vsub_self_of_finite hfin)
  · have hok : valOk n.val = true := decodeNum_ok _ _ _
    rw [hq] at hok ⊢
    exact vdiv_self_of_fin (of_decide_eq_true hok)

end Sys2Proof.Machine

/-! The Comparator (42_comparator.md R160 to R171). The relations look at a value through `num`, so their laws are laws
of the order of the extended reals; the seven commands are one common body (`relop`), with one equation per outcome on
registers that hold instances. -/

namespace Sys2Proof

theorem assemble_fieldsSS (o : Nat) (rs1 rs2 : Reg) : assemble o (fieldsSS rs1 rs2) =
    BitVec.ofNat 32 (o * 2 ^ 24 + (rs1.val * 0x10000 + rs2.val * 0x1000)) := by
  simp [assemble, fieldsSS, Nat.add_assoc]

end Sys2Proof

namespace Sys2Proof.Machine

variable {s : State} {r1 r2 : Reg} {x y : Instance} {a b m e : Nat} {v w : Val} {p q : Rat}

/-! ### The extended real of a value -/

theorem exists_num (h : v ≠ .nan) : ∃ z, num v = some z := by
  cases v with
  | nan => exact absurd rfl h
  | inf f => cases f <;> exact ⟨_, rfl⟩
  | zero _ | fin _ => exact ⟨_, rfl⟩

theorem num_of_finiteNum (h : finiteNum v = some p) : num v = some (.rat p) := by
  cases v with
  | nan | inf _ => cases h
  | zero _ | fin _ => exact congrArg (some ∘ ExtReal.rat) (Option.some.inj h)

theorem num_inf_ne_rat (f : Bool) (p : Rat) : num (.inf f) ≠ some (.rat p) := by
  cases f <;> nofun

theorem num_inf_inj {f g : Bool} : num (.inf f) = num (.inf g) ↔ f = g := by
  cases f <;> cases g <;> decide

/-- Only the two zeros share their extended real. -/
theorem eq_or_zeros_of_num_eq (hnan : v ≠ .nan) (hv : valOk v = true) (hw : valOk w = true) (h : num v = num w) :
    v = w ∨ ∃ f g, v = .zero f ∧ w = .zero g := by
  have hrat {p q : Rat} (h : some (ExtReal.rat p) = some (.rat q)) : p = q := ExtReal.rat.inj (Option.some.inj h)
  cases v with
  | nan => exact absurd rfl hnan
  | inf f =>
    cases w with
    | nan => cases f <;> cases h
    | inf g => exact .inl (congrArg Val.inf (num_inf_inj.1 h))
    | zero _ | fin _ => exact absurd h (num_inf_ne_rat f _)
  | zero f =>
    cases w with
    | nan => cases h
    | inf g => exact absurd h.symm (num_inf_ne_rat g _)
    | zero g => exact .inr ⟨f, g, rfl, rfl⟩
    | fin q => exact absurd (hrat h).symm (of_decide_eq_true hw)
  | fin p =>
    cases w with
    | nan => cases h
    | inf g => exact absurd h.symm (num_inf_ne_rat g _)
    | zero g => exact absurd (hrat h) (of_decide_eq_true hv)
    | fin q => exact .inl (congrArg Val.fin (hrat h))

/-! ### The relations -/

theorem ordered_of_num {rel : ExtReal → ExtReal → Bool} {z t : ExtReal} (hv : num v = some z) (hw : num w = some t) :
    ordered rel v w = rel z t := by
  simp only [ordered, hv, hw]

theorem ordered_of_nan {rel : ExtReal → ExtReal → Bool} (h : v = .nan ∨ w = .nan) : ordered rel v w = false := by
  obtain rfl | rfl := h
  · rfl
  · have hnan : num .nan = none := rfl
    cases hv : num v <;> simp only [ordered, hv, hnan]

/-- `veq` compares the extended reals, and a NaN has none. -/
theorem veq_iff : veq v w = true ↔ v ≠ .nan ∧ num v = num w := by
  by_cases hv : v = .nan
  · exact iff_of_false (ne_true_of_eq_false (ordered_of_nan (.inl hv))) fun h => h.1 hv
  · obtain ⟨z, hz⟩ := exists_num hv
    by_cases hw : w = .nan
    · refine iff_of_false (ne_true_of_eq_false (ordered_of_nan (.inr hw))) fun ⟨_, h⟩ => ?_
      cases hz.symm.trans (h.trans (congrArg num hw))
    · obtain ⟨t, ht⟩ := exists_num hw
      simp [veq, ordered_of_num hz ht, hv, hz, ht]

theorem veq_eq_decide {P : Prop} [Decidable P] (hv : v ≠ .nan) (h : num v = num w ↔ P) : veq v w = decide P := by
  rw [Bool.eq_iff_iff, veq_iff, decide_eq_true_iff, and_iff_right hv, h]

theorem veq_of_num_ne (h : num v ≠ num w) : veq v w = false ∧ veq w v = false :=
  ⟨Bool.eq_false_of_not_eq_true fun hveq => h (veq_iff.1 hveq).2,
    Bool.eq_false_of_not_eq_true fun hveq => h (veq_iff.1 hveq).2.symm⟩

theorem veq_inf_inf (f g : Bool) : veq (.inf f) (.inf g) = decide (f = g) := veq_eq_decide nofun num_inf_inj

theorem veq_inf_finite (f : Bool) (h : finiteNum v = some p) : veq (.inf f) v = false ∧ veq v (.inf f) = false :=
  veq_of_num_ne (num_of_finiteNum h ▸ num_inf_ne_rat f p)

theorem veq_comm (v w : Val) : veq v w = veq w v := by
  by_cases h : v = .nan ∨ w = .nan
  · exact (ordered_of_nan h).trans (ordered_of_nan h.symm).symm
  · obtain ⟨hv, hw⟩ := not_or.1 h
    rw [veq_eq_decide hv eq_comm, veq_eq_decide hw Iff.rfl]

theorem vle_eq_vlt_or_veq (v w : Val) : vle v w = (vlt v w || veq v w) := by
  by_cases h : v = .nan ∨ w = .nan
  · simp only [vle, vlt, veq, ordered_of_nan h, Bool.or_false]
  · obtain ⟨hv, hw⟩ := not_or.1 h
    obtain ⟨z, hz⟩ := exists_num hv
    obtain ⟨t, ht⟩ := exists_num hw
    simp only [vle, vlt, veq, ordered_of_num hz ht, extReal_le_iff]

theorem vlt_trichotomy (hv : v ≠ .nan) (hw : w ≠ .nan) :
    (vlt v w = true ∧ veq v w = false ∧ vlt w v = false) ∨
      (vlt v w = false ∧ veq v w = true ∧ vlt w v = false) ∨
      (vlt v w = false ∧ veq v w = false ∧ vlt w v = true) := by
  obtain ⟨z, hz⟩ := exists_num hv
  obtain ⟨t, ht⟩ := exists_num hw
  simpa only [vlt, veq, ordered_of_num hz ht, ordered_of_num ht hz, decide_eq_true_eq, decide_eq_false_iff_not]
    using extReal_lt_trichotomy z t

/-- On values that are no NaN, `vlt` is the negation of `vle` the other way round. -/
theorem vlt_eq_not_vle (hv : v ≠ .nan) (hw : w ≠ .nan) : vlt v w = !vle w v := by
  rw [vle_eq_vlt_or_veq, veq_comm w v]
  obtain ⟨h1, h2, h3⟩ | ⟨h1, h2, h3⟩ | ⟨h1, h2, h3⟩ := vlt_trichotomy hv hw <;> rw [h1, h2, h3] <;> rfl

theorem vlt_irrefl (v : Val) : vlt v v = false := by
  by_cases h : v = .nan
  · exact ordered_of_nan (.inl h)
  · obtain ⟨h1, -, h3⟩ | ⟨h1, -, -⟩ | ⟨h1, -, -⟩ := vlt_trichotomy h h
    · exact h3
    · exact h1
    · exact h1

/-- The infinities are the ends of the order. -/
theorem vle_ends (h : v ≠ .nan) : vle (.inf true) v = true ∧ vle v (.inf false) = true := by
  obtain ⟨z, hz⟩ := exists_num h
  exact ⟨(ordered_of_num rfl hz).trans rfl, (ordered_of_num hz rfl).trans (by cases z <;> rfl)⟩

theorem not_vle_negInf (h : v ≠ .inf true) : vle v (.inf true) = false := by
  cases v with
  | nan | zero _ | fin _ => rfl
  | inf f =>
    cases f with
    | false => rfl
    | true => exact absurd rfl h

theorem not_posInf_vle (h : v ≠ .inf false) : vle (.inf false) v = false := by
  cases v with
  | nan | zero _ | fin _ => rfl
  | inf f =>
    cases f with
    | false => exact absurd rfl h
    | true => rfl

/-- Settles O39: the order of the extended reals, and what stands at its ends. -/
theorem orderByClass : Obligations.OrderByClass := by
  have hnan {rel : ExtReal → ExtReal → Bool} (v : Val) : ordered rel v .nan = false := ordered_of_nan (.inr rfl)
  have hinf (f : Bool) : Val.inf f ≠ .nan := nofun
  refine ⟨fun v => ⟨rfl, hnan v, rfl, hnan v⟩, fun _ _ => ⟨rfl, rfl⟩, fun _ _ => ⟨rfl, rfl⟩,
    fun _ _ => ⟨rfl, rfl, rfl, rfl⟩, fun v hv hne => ?_, fun v hv hne => ?_, fun _ hv => vle_ends hv,
    fun f => vlt_irrefl (.inf f), fun _ _ hne => not_vle_negInf hne, fun _ _ hne => not_posInf_vle hne,
    vle_eq_vlt_or_veq⟩
  · rw [vlt_eq_not_vle (hinf true) hv, vlt_eq_not_vle hv (hinf true), not_vle_negInf hne, (vle_ends hv).1]
    exact ⟨rfl, rfl⟩
  · rw [vlt_eq_not_vle hv (hinf false), vlt_eq_not_vle (hinf false) hv, not_posInf_vle hne, (vle_ends hv).2]
    exact ⟨rfl, rfl⟩

/-! ### Equality of arrays -/

/-- The arrays of one shape whose bits but the sign are all 0 are the two zeros. -/
theorem tail_all_false_iff {c : Bits} (hc : c.length = m + e + 1) :
    c.tail.all (· == false) = true ↔ ∃ f, c = zeroBits f m e := by
  constructor
  · intro h
    cases c with
    | nil => cases hc
    | cons f t =>
      have ht : t = List.replicate (e + m) false :=
        List.eq_replicate_iff.2 ⟨by simp at hc; omega, by simpa using h⟩
      exact ⟨f, by simp [zeroBits, rep, ht, List.replicate_append_replicate]⟩
  · rintro ⟨f, rfl⟩
    simp [zeroBits, rep]

theorem decodeNum_zeroBits (f : Bool) (he : 1 ≤ e) : decodeNum (zeroBits f m e) m e = .zero f := by
  rw [zeroBits_eq_numberBits, decodeNum_numberBits he (Nat.zero_le _)]
  exact withSign_zero

/-- An array is what the encoder makes of its value. -/
theorem eq_encodeNum_of_decodeNum {c : Bits} (he : 1 ≤ e) (hc : c.length = m + e + 1) (hnan : decodeNum c m e ≠ .nan)
    (h : decodeNum c m e = v) : c = encodeNum v m e :=
  h ▸ (encodeNum_decodeNum he hc hnan).symm

/-- Settles O38: values of one extended real are the same or zeros, and the encoder takes a value back to its array. -/
theorem equalityByClassAndBits : Obligations.EqualityByClassAndBits := by
  refine ⟨fun _ => ⟨rfl, ordered_of_nan (.inr rfl)⟩, fun _ _ => veq_iff.2 ⟨nofun, rfl⟩, veq_inf_inf,
    fun p q => veq_eq_decide nofun ?_, fun _ g => (veq_inf_finite g rfl).symm, fun f q hq => veq_of_num_ne ?_,
    fun f _ => veq_inf_finite f rfl, fun c d m e _ he hc hd hcn hdn => ?_⟩
  · simp [num]
  · simpa [num] using hq.symm
  rw [tail_all_false_iff hc, tail_all_false_iff hd, veq_iff, and_iff_right hcn]
  constructor
  · intro h
    have hc' {v : Val} : decodeNum c m e = v → c = encodeNum v m e := eq_encodeNum_of_decodeNum he hc hcn
    have hd' {v : Val} : decodeNum d m e = v → d = encodeNum v m e := eq_encodeNum_of_decodeNum he hd hdn
    obtain heq | ⟨f, g, hf, hg⟩ := eq_or_zeros_of_num_eq hcn (decodeNum_ok c m e) (decodeNum_ok d m e) h
    · exact .inl ((hc' heq).trans (hd' rfl).symm)
    · exact .inr ⟨⟨f, hc' hf⟩, g, hd' hg⟩
  · rintro (rfl | ⟨⟨f, rfl⟩, g, rfl⟩)
    · rfl
    · rw [decodeNum_zeroBits f he, decodeNum_zeroBits g he]
      rfl

/-! ### The tolerance -/

theorem ulp_pos (q : Rat) (m e : Nat) : 0 < ulp q m e := by
  unfold ulp
  split
  · exact pow2_pos _
  · exact pow2_pos _

/-- `ulp` is the only number with the property R169 gives it. -/
theorem ulp_of_isUlp {u : Rat} (h : IsUlp q m e u) : ulp q m e = u := by
  obtain ⟨rfl, rfl⟩ | ⟨hq, E, ⟨hlow, hhigh⟩, rfl⟩ := h
  · rw [ulp, if_pos rfl, pow2_eq]
  · rw [← pow2_eq, ← absRat_eq] at hlow hhigh
    rw [ulp, if_neg hq, floorlog2_unique hlow hhigh, pow2_eq]

theorem withinTolerance_of_finite (hv : finiteNum v = some p) (hw : finiteNum w = some q) :
    withinTolerance a m e v w = decide (|p - q| ≤ (a : Rat) * max (ulp p m e) (ulp q m e)) := by
  simp only [withinTolerance, hv, hw, absRat_eq]

theorem withinTolerance_of_not_finite (h : finiteNum v = none ∨ finiteNum w = none) :
    withinTolerance a m e v w = veq v w := by
  obtain h | h := h
  · simp only [withinTolerance, h]
  · cases hv : finiteNum v <;> simp only [withinTolerance, hv, h]

/-- Two values are both finite, or one is not: the two cases of the check of R170. -/
theorem finite_or_not_finite (v w : Val) :
    (∃ p q, finiteNum v = some p ∧ finiteNum w = some q) ∨ (finiteNum v = none ∨ finiteNum w = none) := by
  cases finiteNum v with
  | none => exact .inr (.inl rfl)
  | some p =>
    cases finiteNum w with
    | none => exact .inr (.inr rfl)
    | some q => exact .inl ⟨p, q, rfl, rfl⟩

theorem withinTolerance_comm (a m e : Nat) (v w : Val) : withinTolerance a m e v w = withinTolerance a m e w v := by
  obtain ⟨p, q, hv, hw⟩ | h := finite_or_not_finite v w
  · rw [withinTolerance_of_finite hv hw, withinTolerance_of_finite hw hv, abs_sub_comm, max_comm]
  · rw [withinTolerance_of_not_finite h, withinTolerance_of_not_finite h.symm, veq_comm]

theorem withinTolerance_mono (hab : a ≤ b) (h : withinTolerance a m e v w = true) :
    withinTolerance b m e v w = true := by
  obtain ⟨p, q, hv, hw⟩ | hfin := finite_or_not_finite v w
  · rw [withinTolerance_of_finite hv hw, decide_eq_true_iff] at h ⊢
    have hstep : 0 ≤ max (ulp p m e) (ulp q m e) := le_max_of_le_left (ulp_pos p m e).le
    exact h.trans (mul_le_mul_of_nonneg_right (Nat.cast_le.2 hab) hstep)
  · rw [withinTolerance_of_not_finite hfin] at h ⊢
    exact h

/-- Settles O40: the order of the extended reals is total, and the check of R170 is symmetric and monotone. -/
theorem orderingIsTotalButForNaN : Obligations.OrderingIsTotalButForNaN := by
  refine ⟨fun _ _ => vlt_trichotomy, fun v w => ⟨vle_eq_vlt_or_veq v w, ?_⟩, fun v w h => ?_,
    fun v w => ⟨veq_comm v w, congrArg not (veq_comm v w), rfl, rfl, rfl⟩, withinTolerance_comm,
    fun _ _ _ _ _ _ => withinTolerance_mono⟩
  · rw [vge, vgt, vle_eq_vlt_or_veq, veq_comm]
  · have hnan {rel : ExtReal → ExtReal → Bool} : ordered rel v w = false := ordered_of_nan h
    have hnan' {rel : ExtReal → ExtReal → Bool} : ordered rel w v = false := ordered_of_nan h.symm
    exact ⟨hnan, hnan, hnan', hnan, hnan', congrArg not hnan⟩

/-! ### The common body -/

section HeldSources

variable {rel : Nat → Nat → Val → Val → Bool} (hx : s.holds r1 x) (hy : s.holds r2 y)
include hx hy

theorem relop_of_holds : relop rel r1 r2 s =
    if sameShape x y then answer s (.bool (rel x.ml x.el x.val y.val)) else .next (s.raise .precisionMismatch) := by
  obtain ⟨hr1, hn1⟩ := hx
  obtain ⟨hr2, hn2⟩ := hy
  simp [relop, withSources, State.hasReg, hr1, hr2, hn1, hn2]

theorem relop_of_shape_eq (h : x.ml = y.ml ∧ x.el = y.el) :
    relop rel r1 r2 s = .next (s.answered (.bool (rel x.ml x.el x.val y.val))) :=
  (relop_of_holds hx hy).trans (if_pos (sameShape_iff.2 h))

theorem relop_of_shape_ne (h : ¬ (x.ml = y.ml ∧ x.el = y.el)) :
    relop rel r1 r2 s = .next (s.raised .precisionMismatch) :=
  (relop_of_holds hx hy).trans (if_neg (mt sameShape_iff.1 h))

end HeldSources

/-- Settles O37: the six commands are the common body, and both outcomes of its shape check. -/
theorem relationsCompareExactValues : Obligations.RelationsCompareExactValues := by
  intro s r1 r2 x y hx hy
  have heq {rel : Val → Val → Bool} := relop_of_shape_eq (rel := fun _ _ => rel) hx hy
  refine ⟨assemble_fieldsSS 0x40 r1 r2, assemble_fieldsSS 0x41 r1 r2, assemble_fieldsSS 0x42 r1 r2,
    assemble_fieldsSS 0x43 r1 r2, assemble_fieldsSS 0x44 r1 r2, assemble_fieldsSS 0x45 r1 r2,
    fun h => ⟨heq h, heq h, heq h, heq h, heq h, heq h⟩, fun h i hi => ?_⟩
  obtain ⟨rel, hrel⟩ := comparison_eq_relop i r1 r2 hi
  exact (hrel s).trans (relop_of_shape_ne hx hy h)

/-- Settles O41: the two cases of the check of R170 on the decoded operands, by the class that decides. -/
theorem chkprecComparesWithinUlps : Obligations.ChkprecComparesWithinUlps := by
  intro s r1 r2 x y hx hy vx vy
  refine ⟨(assemble_fieldsSS 0x46 r1 r2).trans (congrArg _ (Nat.add_assoc _ _ _).symm), relop_of_shape_ne hx hy,
    fun h => ?_⟩
  have hexec {z : Bool} (hz : withinTolerance s.ports.a x.ml x.el vx vy = z) :
      exec (.chkprec r1 r2) s = .next (s.answered (.bool z)) := hz ▸ relop_of_shape_eq hx hy h
  refine ⟨fun hnan => hexec ?_, fun f g hf hg => hexec ?_, fun f p hfin => hexec ?_,
    fun p q u w hp hq hu hw => hexec ?_⟩
  · rw [withinTolerance_of_not_finite (hnan.imp (congrArg finiteNum) (congrArg finiteNum))]
    exact ordered_of_nan hnan
  · rw [hf, hg, withinTolerance_of_not_finite (.inl rfl), veq_inf_inf]
  · obtain ⟨hf, hp⟩ | ⟨hp, hf⟩ := hfin
    · rw [hf, withinTolerance_of_not_finite (.inl rfl), (veq_inf_finite f hp).1]
    · rw [hf, withinTolerance_of_not_finite (.inr rfl), (veq_inf_finite f hp).2]
  · rw [withinTolerance_of_finite hp hq, ulp_of_isUlp hu, ulp_of_isUlp hw]

end Sys2Proof.Machine

/-! The Precision Caster (43_caster.md R190 to R193). CAST and COPY have one equation per outcome on a register that
holds an instance, and a CAST that answers OK has an inversion lemma (`exec_cast_ok`). A wider shape represents every
value of a narrower one (`decodeNum_encodeNum_of_wider`), since it has finer steps at every exponent and its infinity
lies no lower; rounding to any shape is off by at most half a step (`abs_gridValue_packedMagnitude_sub_le`). -/

namespace Sys2Proof

theorem assemble_fieldsDS (o : Nat) (rd rs1 : Reg) : assemble o (fieldsDS rd rs1) =
    BitVec.ofNat 32 (o * 2 ^ 24 + rd.val * 0x100000 + rs1.val * 0x10000) := by
  simp [assemble, fieldsDS]

end Sys2Proof

namespace Sys2Proof.Machine

variable {s t : State} {r rd : Reg} {n : Instance} {b : Bits} {m e m' e' j k : Nat} {E : Int} {a q : Rat}

/-! ### The two commands -/

section HeldRegister

variable (h : s.holds r n)
include h

theorem exec_cast_of_not_legal (hw : ¬ LegalWidths s.params s.ports.a s.ports.b) :
    exec (.cast r) s = .next (s.raised .configurationError) :=
  (withSource_of_holds h _).trans (withWidths_of_not_legal hw _)

theorem exec_cast_of_same (hw : LegalWidths s.params s.ports.a s.ports.b)
    (hsame : s.ports.a = n.ml ∧ s.ports.b = n.el) : exec (.cast r) s = .next (s.answered .none) :=
  (withSource_of_holds h _).trans ((withWidths_of_legal hw _).trans (if_pos hsame))

theorem exec_cast_of_ne (hw : LegalWidths s.params s.ports.a s.ports.b)
    (hne : ¬ (s.ports.a = n.ml ∧ s.ports.b = n.el)) :
    exec (.cast r) s = .next (s.written r (instanceOf n.val s.ports.a s.ports.b)) :=
  (withSource_of_holds h _).trans ((withWidths_of_legal hw _).trans (if_neg hne))

theorem exec_copy (hrd : rd.val < s.params.nreg) : exec (.copy rd r) s = .next (s.written rd n) := by
  obtain ⟨hr, hn⟩ := h
  have hex : exec (.copy rd r) s = withSource s [rd, r] r fun n => writeOk s rd n := rfl
  rw [hex, withSource, if_pos (by simp [State.hasReg, hrd, hr]), hn]
  rfl

end HeldRegister

/-- Settles O42: the width check first, then the current widths, then the re-encoding. -/
theorem castReencodesInPlace : Obligations.CastReencodesInPlace := fun _ r _ h =>
  ⟨assemble_fieldsD 0x50 r, exec_cast_of_not_legal h, exec_cast_of_same h, exec_cast_of_ne h⟩

/-- Settles O44: COPY writes the instance it reads, and a later command writes no register but its own. -/
theorem copyIsIndependent : Obligations.CopyIsIndependent := by
  intro s rd r n hrd h
  refine ⟨assemble_fieldsDS 0x51 rd r, exec_copy h hrd, fun hne i u hex => ⟨fun hw => ?_, fun hw => ?_⟩⟩
  · obtain ⟨-, hn⟩ := holds_written_ne h hne n
    rw [exec_inst_of_not_written hex (by simpa [hw] using hne), hn]
  · exact exec_inst_of_not_written hex (by simpa [hw] using hne.symm)

/-- A CAST that answers OK: the checks passed, and it was to the current widths or it re-encoded the value. -/
theorem exec_cast_ok (h : exec (.cast r) s = .next t) (hok : t.response = some (.ok .none)) :
    ∃ n, s.holds r n ∧ LegalWidths s.params s.ports.a s.ports.b ∧
      ((s.ports.a = n.ml ∧ s.ports.b = n.el) ∧ t = s.answered .none ∨
        t = s.written r (instanceOf n.val s.ports.a s.ports.b)) := by
  obtain ⟨hr, n, hn, hbody⟩ | ⟨-, -, rfl⟩ | ⟨-, rfl⟩ := withSource_next h
  · have hheld : s.holds r n := ⟨by simpa [State.hasReg] using hr, hn⟩
    obtain ⟨hw, hbody⟩ | ⟨-, rfl⟩ := withWidths_next hbody
    · refine ⟨n, hheld, (widthsOk_iff _ _ _).1 hw, ?_⟩
      split at hbody
      · next hsame => exact .inl ⟨hsame, (next_inj hbody).symm⟩
      · exact .inr (next_inj hbody).symm
    · cases hok
  · cases hok
  · cases hok

/-- Settles O45: after a CAST that answers OK the register has the widths on the ports, so that the second is to the
current widths. -/
theorem castIsIdempotent : Obligations.CastIsIdempotent := by
  refine ⟨fun s r n hs h => exec_cast_of_same h (holds_wf hs h).1 ⟨rfl, rfl⟩, fun s t r _ hex hok => ?_⟩
  obtain ⟨n, h, hw, ⟨hsame, rfl⟩ | rfl⟩ := exec_cast_ok hex hok
  · exact (exec_withResponse _ s _).trans hex
  · exact exec_cast_of_same (holds_rewritten h _) hw ⟨rfl, rfl⟩

/-! ### Rounding to a shape -/

theorem rne_steps_le (ha : 0 < a) : rne (a / pow2 (gridExp a e - m)) ≤ 2 ^ (m + 1) := by
  rw [← rne_natCast (2 ^ (m + 1)), ← pow2_div_pow2 (gridExp a e) m 1]
  exact rne_mono (div_nonneg ha.le (pow2_pos _).le)
    (div_le_div_of_nonneg_right (lt_pow2_gridExp ha).le (pow2_pos _).le)

theorem le_rne_steps (ha : 0 < a) (h : emin e < gridExp a e) : 2 ^ m ≤ rne (a / pow2 (gridExp a e - m)) := by
  have hsteps := pow2_div_pow2 (gridExp a e) m 0
  rw [Nat.cast_zero, add_zero, add_zero] at hsteps
  rw [← rne_natCast (2 ^ m), ← hsteps]
  exact rne_mono (div_nonneg (pow2_pos _).le (pow2_pos _).le)
    (div_le_div_of_nonneg_right (pow2_gridExp_le ha h) (pow2_pos _).le)

/-- The rational of the grid that the encoder takes is a whole number of steps of `a`'s own exponent. -/
theorem gridValue_packedMagnitude (ha : 0 < a) : gridValue m e (packedMagnitude a m e) =
    rne (a / pow2 (gridExp a e - m)) * pow2 (gridExp a e - m) := by
  have hle : rne (a / pow2 (gridExp a e - m)) ≤ 2 ^ (m + 1) := rne_steps_le ha
  have hge : emin e < gridExp a e → 2 ^ m ≤ rne (a / pow2 (gridExp a e - m)) := le_rne_steps ha
  rw [packedMagnitude_eq]
  obtain ⟨d, hd⟩ := Int.le.dest (emin_le_gridExp a e)
  rw [← hd] at hle hge ⊢
  rw [add_sub_cancel_left, Int.toNat_natCast]
  exact gridValue_of_steps hle ((Nat.eq_zero_or_pos d).imp_right fun hpos => hge (by omega))

/-- Rounding is off by at most half a step. -/
theorem abs_gridValue_packedMagnitude_sub_le (ha : 0 < a) :
    |gridValue m e (packedMagnitude a m e) - a| ≤ 1 / 2 * pow2 (gridExp a e - m) := by
  have hp := pow2_pos (gridExp a e - m)
  obtain ⟨hdist, -⟩ := rne_spec (div_nonneg ha.le hp.le)
  calc |gridValue m e (packedMagnitude a m e) - a|
      = |a / pow2 (gridExp a e - m) - rne (a / pow2 (gridExp a e - m))| * pow2 (gridExp a e - m) := by
        rw [gridValue_packedMagnitude ha, ← abs_of_pos hp, ← abs_mul, abs_of_pos hp, sub_mul,
          div_mul_cancel₀ _ hp.ne', abs_sub_comm]
    _ ≤ 1 / 2 * pow2 (gridExp a e - m) := mul_le_mul_of_nonneg_right hdist hp.le

/-- A whole number of steps of a rational's own exponent, or of a larger one, is on the grid. -/
theorem gridValue_packedMagnitude_of_steps {c : Nat} {i : Int} (ha : 0 < a) (h : a = c * pow2 i)
    (hle : gridExp a e - m ≤ i) : gridValue m e (packedMagnitude a m e) = a := by
  obtain ⟨d, rfl⟩ := Int.le.dest hle
  have hsteps : a / pow2 (gridExp a e - m) = (c * 2 ^ d : Nat) := by
    rw [div_eq_iff (pow2_pos _).ne', Nat.cast_mul, ← pow2_natCast, mul_assoc, ← pow2_add, add_comm (d : Int)]
    exact h
  rw [gridValue_packedMagnitude ha, hsteps, rne_natCast, ← hsteps, div_mul_cancel₀ _ (pow2_pos _).ne']

/-! ### A wider shape -/

theorem gridValue_lt (m e j : Nat) : gridValue m e j < pow2 (emin e + (j / 2 ^ m - 1 : Nat) + 1) := by
  have hsteps : pow2 (emin e + (j / 2 ^ m - 1 : Nat) + 1) =
      (2 ^ (m + 1) : Nat) * pow2 (emin e + (j / 2 ^ m - 1 : Nat) - m) := pow2_eq_steps _ m 1
  have hmod : j % 2 ^ m < 2 ^ m := Nat.mod_lt _ (Nat.two_pow_pos m)
  rw [hsteps, gridValue]
  refine mul_lt_mul_of_pos_right (Nat.cast_lt.2 ?_) (pow2_pos _)
  rw [pow_succ]
  split_ifs <;> omega

/-- Where the grid of a shape would go on, its infinity stands; the place does not depend on the mantissa. -/
theorem gridValue_infinityNumber (he : 1 ≤ e) : gridValue m e (infinityNumber m e) = pow2 (bias e + 1) := by
  have hdiv : infinityNumber m e / 2 ^ m = efmax e := Nat.mul_div_cancel _ (Nat.two_pow_pos m)
  have hmod : infinityNumber m e % 2 ^ m = 0 := Nat.mul_mod_left _ _
  have hexp : (efmax e : Int) - bias e = bias e + 1 := by
    have hbias := bias_eq he
    have hmax : (efmax e : Int) + 1 = 2 ^ e := by exact_mod_cast efmax_add_one e
    omega
  rw [gridValue_of_normal (hdiv ▸ (efmax_pos he).ne'), hdiv, hmod, hexp]
  simp

theorem bias_mono (h : e ≤ e') : bias e ≤ bias e' := by
  have : 2 ^ (e - 1) ≤ 2 ^ (e' - 1) := Nat.pow_le_pow_right (by norm_num) (Nat.sub_le_sub_right h 1)
  simp only [bias]
  omega

/-- The grid lists no rational twice. -/
theorem gridValue_lt_gridValue (hj : 0 < j) (h : j < k) : gridValue m e j < gridValue m e k := by
  refine lt_of_le_of_ne (gridValue_mono h.le) fun heq => h.ne ?_
  rw [← packedMagnitude_gridValue (m := m) (e := e) hj, heq, packedMagnitude_gridValue (hj.trans h)]

theorem magnitude_of_finite (hk : 0 < k) (hfin : k < infinityNumber m e) :
    magnitude m e k = .fin (gridValue m e k) := by
  rw [magnitude, if_neg hk.ne', if_neg hfin.not_ge]

theorem decodeNum_infBits (f : Bool) (he : 1 ≤ e) : decodeNum (infBits f m e) m e = .inf f := by
  rw [infBits_eq_numberBits, decodeNum_numberBits he le_rfl, withSign_magnitude_eq_inf_iff he]

section Wider

variable (hm : m ≤ m') (he : e ≤ e')
include hm he

/-- The grid of a wider shape contains the grid of a narrower one. -/
theorem gridValue_packedMagnitude_of_wider (hj : 0 < j) :
    gridValue m' e' (packedMagnitude (gridValue m e j) m' e') = gridValue m e j := by
  have hpos : 0 < gridValue m e j := gridValue_pos hj
  have hlog : floorlog2 (gridValue m e j) < emin e + (j / 2 ^ m - 1 : Nat) + 1 :=
    pow2_lt_iff.1 ((floorlog2_spec hpos).1.trans_lt (gridValue_lt m e j))
  have hmin : emin e' ≤ emin e := sub_le_sub_left (bias_mono he) 1
  have hle : gridExp (gridValue m e j) e' - m' ≤ emin e + (j / 2 ^ m - 1 : Nat) - m := by
    rw [gridExp]
    omega
  obtain ⟨c, hc⟩ := gridValue_eq_steps (e := e) (le_refl (j / 2 ^ m - 1))
  exact gridValue_packedMagnitude_of_steps hpos hc hle

/-- What is finite in a shape is finite in a wider one. -/
theorem packedMagnitude_lt_infinityNumber_of_wider (he1 : 1 ≤ e) (hj : 0 < j) (hfin : j < infinityNumber m e) :
    packedMagnitude (gridValue m e j) m' e' < infinityNumber m' e' := by
  by_contra hge
  have hinf := gridValue_mono (m := m') (e := e') (not_lt.1 hge)
  rw [gridValue_packedMagnitude_of_wider hm he hj, gridValue_infinityNumber (he1.trans he)] at hinf
  have hlt := gridValue_lt_gridValue (m := m) (e := e) hj hfin
  rw [gridValue_infinityNumber he1] at hlt
  have hbias := pow2_le (add_le_add_left (bias_mono he) 1)
  exact (hlt.trans_le hbias).not_ge hinf

theorem magnitude_packedMagnitude_of_wider (he1 : 1 ≤ e) (hj : 0 < j) (hfin : j < infinityNumber m e) :
    magnitude m' e' (packedMagnitude (gridValue m e j) m' e') = .fin (gridValue m e j) := by
  have hval := gridValue_packedMagnitude_of_wider hm he hj
  have hpos : 0 < packedMagnitude (gridValue m e j) m' e' := by
    refine Nat.pos_of_ne_zero fun h0 => (gridValue_pos (m := m) (e := e) hj).ne' ?_
    rw [← hval, h0, gridValue_zero]
  rw [magnitude_of_finite hpos (packedMagnitude_lt_infinityNumber_of_wider hm he he1 hj hfin), hval]

/-- A wider shape represents every value of a narrower one. -/
theorem decodeNum_encodeNum_of_wider (hm1 : 1 ≤ m) (he1 : 1 ≤ e) (hb : b.length = m + e + 1) :
    decodeNum (encodeNum (decodeNum b m e) m' e') m' e' = decodeNum b m e := by
  have he1' : 1 ≤ e' := he1.trans he
  obtain hnan | hk := decodeNum_eq_nan_or he1 hb
  · rw [hnan]
    exact decodeNum_canonicalNaN (hm1.trans hm) he1'
  · rw [decodeNum_eq_magnitude he1 hb hk]
    obtain hzero | hpos := Nat.eq_zero_or_pos (packedFields b m e)
    · rw [hzero, magnitude, if_pos rfl, withSign_zero]
      exact decodeNum_zeroBits _ he1'
    · obtain hinf | hfin := hk.eq_or_lt
      · rw [(withSign_magnitude_eq_inf_iff he1).2 hinf.ge]
        exact decodeNum_infBits _ he1'
      · have hg : 0 < gridValue m e (packedFields b m e) := gridValue_pos hpos
        have hlt := packedMagnitude_lt_infinityNumber_of_wider hm he he1 hpos hfin
        rw [magnitude_of_finite hpos hfin, withSign_fin, encodeNum_fin, absRat_signFactor_mul hg,
          decide_signFactor_mul_neg hg, min_eq_left hlt.le, decodeNum_numberBits he1' hlt.le,
          magnitude_packedMagnitude_of_wider hm he he1 hpos hfin, withSign_fin]

/-- A value rounded to a shape is kept by a wider one. -/
theorem val_instanceOf_of_wider (hm1 : 1 ≤ m) (he1 : 1 ≤ e) (v : Val) :
    (instanceOf (instanceOf v m e).val m' e').val = (instanceOf v m e).val :=
  decodeNum_encodeNum_of_wider hm he hm1 he1 (encodeNum_length v e hm1)

end Wider

/-- Settles O43: a cast to the current widths keeps the instance; another one encodes its value, and each special value
and each value of a narrower shape survives that. -/
theorem castKeepsSpecialsAndWidensExactly : Obligations.CastKeepsSpecialsAndWidensExactly := by
  intro s t r n k hs hn hex hok hk
  obtain ⟨n', h, hw, hcase⟩ := exec_cast_ok hex hok
  have ⟨_, hn'⟩ := h
  obtain rfl : n' = n := Option.some.inj (hn'.symm.trans hn)
  obtain ⟨⟨hml, hel⟩, rfl⟩ | rfl := hcase
  · obtain rfl : n' = k := Option.some.inj (hn.symm.trans hk)
    exact ⟨hml.symm, hel.symm, id, fun _ => id, fun _ => id, fun _ _ => rfl⟩
  · rw [inst_written (inst_lt_length hn)] at hk
    obtain rfl := Option.some.inj hk
    obtain ⟨ha, hb, -⟩ := hw
    obtain ⟨⟨hm, he, -⟩, hl⟩ := holds_wf hs h
    refine ⟨rfl, rfl, fun hv => ?_, fun f hv => ?_, fun f hv => ?_,
      fun hma heb => decodeNum_encodeNum_of_wider hma heb hm he hl⟩
    · rw [hv]
      exact decodeNum_canonicalNaN ha hb
    · rw [hv]
      exact decodeNum_infBits f hb
    · rw [hv]
      exact decodeNum_zeroBits f hb

/-! ### Cast down and up -/

theorem legalWidths_of_le {p : Params} (h : LegalWidths p m' e') (hm1 : 1 ≤ m) (hm : m ≤ m') (he1 : 1 ≤ e)
    (he : e ≤ e') : LegalWidths p m e := by
  obtain ⟨-, -, hcap⟩ := h
  refine ⟨hm1, he1, fun c hc => ?_⟩
  have := hcap c hc
  omega

/-- The finite value that encoding a rational gives, when it does not overflow. -/
theorem finiteNum_encodeNum_of_ne_inf (he : 1 ≤ e)
    (hinf : ∀ f, decodeNum (encodeNum (.fin q) m e) m e ≠ .inf f) :
    finiteNum (decodeNum (encodeNum (.fin q) m e) m e) =
      some (signFactor (decide (q < 0)) * gridValue m e (packedMagnitude (absRat q) m e)) := by
  have hlt := not_le.1 (mt (encodeNum_eq_inf_iff he).2 (hinf (decide (q < 0))))
  rw [encodeNum_fin, min_eq_left hlt.le, decodeNum_numberBits he hlt.le, finiteNum_withSign_magnitude he,
    if_neg hlt.not_ge]

/-- A rounded rational is off by at most half a step of the exponent of its binade, when that is normal in the shape. -/
theorem abs_rounded_sub_le (hq : q ≠ 0) (hE : IsFloorLog2 |q| E) (hmin : emin e ≤ E) :
    |signFactor (decide (q < 0)) * gridValue m e (packedMagnitude (absRat q) m e) - q| ≤
      1 / 2 * pow2 (E - m) := by
  obtain ⟨hlow, hhigh⟩ := hE
  rw [← pow2_eq, ← absRat_eq] at hlow hhigh
  have hexp : gridExp (absRat q) e = E := by rw [gridExp, floorlog2_unique hlow hhigh, max_eq_left hmin]
  calc |signFactor (decide (q < 0)) * gridValue m e (packedMagnitude (absRat q) m e) - q|
      = |gridValue m e (packedMagnitude (absRat q) m e) - absRat q| := by
        rw [← abs_signFactor_mul (decide (q < 0)) (_ - absRat q), mul_sub, signFactor_mul_absRat]
    _ ≤ 1 / 2 * pow2 (E - m) := hexp ▸ abs_gridValue_packedMagnitude_sub_le (absRat_pos hq)

/-- Half a step with `m'` mantissa bits is `2^(m - m' - 1)` steps with `m`. -/
theorem half_pow2_sub (hm : m' < m) (i : Int) :
    1 / 2 * pow2 (i - m') = ((2 ^ (m - m' - 1) : Nat) : Rat) * pow2 (i - m) := by
  have hhalf : (1 / 2 : Rat) = pow2 (-1) := by simp [pow2_eq]
  rw [hhalf, ← pow2_natCast, ← pow2_add, ← pow2_add]
  congr 1
  omega

/-- CHKPREC's check against a normal value passes when the difference is at most half a step with `m'` mantissa bits. -/
theorem withinTolerance_of_half_step {x : Rat} {v : Val} {c : Nat} (hq : q ≠ 0) (hE : IsFloorLog2 |q| E)
    (hmin : emin e ≤ E) (hm : m' < m) (hv : finiteNum v = some x) (hx : |x - q| ≤ 1 / 2 * pow2 (E - m'))
    (hc : 2 ^ (m - m' - 1) ≤ c) : withinTolerance c m e v (.fin q) = true := by
  have hulp : ulp q m e = pow2 (E - m) := by
    rw [ulp_of_isUlp (.inr ⟨hq, E, hE, rfl⟩), max_eq_left hmin, pow2_eq]
  rw [withinTolerance_of_finite hv rfl, decide_eq_true_iff]
  calc |x - q| ≤ ((2 ^ (m - m' - 1) : Nat) : Rat) * ulp q m e := by rwa [hulp, ← half_pow2_sub hm]
    _ ≤ c * max (ulp x m e) (ulp q m e) :=
      mul_le_mul (Nat.cast_le.2 hc) (le_max_right _ _) (ulp_pos q m e).le (Nat.cast_nonneg c)

/-- A CAST to other widths: what the register then holds, and that every other register keeps what it held. -/
theorem exec_cast_on_ports {d : Bits} {v : Nat} (h : s.holds r n) (hw : LegalWidths s.params m e)
    (hne : ¬ (m = n.ml ∧ e = n.el)) :
    ∃ t, exec (.cast r) (s.onPorts m e d v) = .next t ∧ t.params = s.params ∧ t.holds r (instanceOf n.val m e) ∧
      ∀ r0 k, r ≠ r0 → s.holds r0 k → t.holds r0 k :=
  ⟨_, exec_cast_of_ne (s := s.onPorts m e d v) h hw hne, rfl, holds_rewritten (s := s.onPorts m e d v) h _,
    fun _ _ hr0 h0 => holds_written_ne (s := s.onPorts m e d v) h0 hr0 _⟩

/-- Settles O46: the way down rounds by at most half a step of the narrower shape, the way up is exact. -/
theorem castDownAndUpRecovers : Obligations.CastDownAndUpRecovers := by
  intro s r r0 n q E m' e' c hs hne h h0 hval hE hmin hm1 hm he1 he hmin' hinf hc
  obtain ⟨hw, -⟩ := holds_wf hs h
  have hq : q ≠ 0 := by
    have hok : valOk n.val = true := decodeNum_ok _ _ _
    rw [hval] at hok
    exact of_decide_eq_true hok
  obtain ⟨t, hdown, hparams, ht, htframe⟩ :=
    exec_cast_on_ports h (legalWidths_of_le hw hm1 hm.le he1 he) fun hsame => hm.ne hsame.1
  obtain ⟨u, hup, -, hu, huframe⟩ := exec_cast_on_ports ht (hparams ▸ hw) fun hsame => hm.ne' hsame.1
  have hu0 : u.holds r0 n := huframe r0 n hne (htframe r0 n hne h0)
  have hcheck : withinTolerance c n.ml n.el (instanceOf (instanceOf n.val m' e').val n.ml n.el).val n.val = true := by
    rw [val_instanceOf_of_wider hm.le he hm1 he1, hval]
    exact withinTolerance_of_half_step hq hE hmin hm (finiteNum_encodeNum_of_ne_inf he1 hinf)
      (abs_rounded_sub_le hq hE hmin') hc
  refine ⟨t, u, hdown, hup, ?_⟩
  rw [← hcheck]
  exact relop_of_shape_eq (s := u.onPorts c 0 [] 0) hu hu0 ⟨rfl, rfl⟩

end Sys2Proof.Machine

/-! The errors (60_exceptions.md R210 to R218). `ErrorCause` collects what R211 to R215 name as the cause of each error.
A cause makes the command end with its error (`exec_of_cause`), a command without one answers OK (`exec_answersOk`), and
the two together say exactly when each error is answered (`exec_error_iff`). -/

namespace Sys2Proof.Machine

variable {s t : State} {i : Instr} {e : Error} {r r1 r2 : Reg} {n x y : Instance} {used : List Reg}

/-! ### The causes -/

/-- A command with two source registers, `r1` and `r2`: the eleven of 60_exceptions.md R213. -/
def HasSources (i : Instr) (r1 r2 : Reg) : Prop :=
  i ∈ [Instr.eq r1 r2, .ne r1 r2, .lt r1 r2, .le r1 r2, .gt r1 r2, .ge r1 r2, .chkprec r1 r2] ∨
    ∃ rd, i ∈ [Instr.add rd r1 r2, .sub rd r1 r2, .mul rd r1 r2, .div rd r1 r2]

/-- The cause the spec names for each error of a decoded command (60_exceptions.md R211 to R215), given that the checks
before it in the order of 30_encoding.md R64 pass. -/
def ErrorCause (i : Instr) (s : State) : Error → Prop
  | .configurationError =>
    (∃ rd, i = .new rd ∨ i = .newv rd ∨ i = .cast rd) ∧ i.wellFormed s.params = true ∧
      (∀ r ∈ i.reads, s.valid r = true) ∧ ¬ LegalWidths s.params s.ports.a s.ports.b
  | .lengthMismatch =>
    ∃ rd n, s.holds rd n ∧
      ((i = .setmant rd ∧ s.ports.d.length ≠ n.ml) ∨ (i = .setexp rd ∧ s.ports.d.length ≠ n.el))
  | .precisionMismatch =>
    i.wellFormed s.params = true ∧ ∃ r1 r2 x y, HasSources i r1 r2 ∧
      s.inst r1 = some x ∧ s.inst r2 = some y ∧ (x.ml ≠ y.ml ∨ x.el ≠ y.el)
  | .noInstance => i.wellFormed s.params = true ∧ ∃ r ∈ i.reads, s.inst r = none
  | .illegalCommand => i.wellFormed s.params = false

/-! ### Check 4 of 30_encoding.md R64 -/

section RegistersExist

variable (hu : used.all s.hasReg = true)
include hu

theorem withSource_of_valid (hn : s.inst r = some n) (body : Instance → Result) :
    withSource s used r body = body n := by
  simp [withSource, hu, hn]

theorem withSource_of_invalid (hn : s.inst r = none) (body : Instance → Result) :
    withSource s used r body = .next (s.raise .noInstance) := by
  simp [withSource, hu, hn]

theorem withSources_of_valid (hx : s.inst r1 = some x) (hy : s.inst r2 = some y)
    (body : Instance → Instance → Result) : withSources s used r1 r2 body = body x y := by
  simp [withSources, hu, hx, hy]

theorem withSources_of_invalid (hr : r ∈ [r1, r2]) (hn : s.inst r = none) (body : Instance → Instance → Result) :
    withSources s used r1 r2 body = .next (s.raise .noInstance) := by
  rw [withSources, if_pos hu]
  split
  · next hx hy =>
    obtain rfl | rfl : r = r1 ∨ r = r2 := by simpa using hr
    · cases hx.symm.trans hn
    · cases hy.symm.trans hn
  · rfl

end RegistersExist

/-- An invalid register that the command reads is answered with NoInstance, whatever the command. -/
theorem exec_of_invalid (hw : i.wellFormed s.params = true) (hr : r ∈ i.reads) (hn : s.inst r = none) :
    exec i s = .next (s.raise .noInstance) := by
  have hu : i.uses.all s.hasReg = true := hw
  cases i with
  | new _ | newv _ => cases hr
  | add _ _ _ | sub _ _ _ | mul _ _ _ | div _ _ _ | eq _ _ | ne _ _ | lt _ _ | le _ _ | gt _ _ | ge _ _
  | chkprec _ _ => exact withSources_of_invalid hu hr hn _
  | _ =>
    obtain rfl := List.mem_singleton.1 hr
    exact withSource_of_invalid hu hn _

/-! ### A cause makes the command end with its error -/

/-- The result is a next state whose response is OK. -/
def AnswersOk (r : Result) : Prop := ∃ t p, r = .next t ∧ t.response = some (.ok p)

theorem answersOk_answer (s : State) (p : Payload) : AnswersOk (answer s p) := ⟨_, p, rfl, rfl⟩

theorem answersOk_writeOk (s : State) (rd : Reg) (n : Instance) : AnswersOk (writeOk s rd n) := ⟨_, .none, rfl, rfl⟩

/-- The commands with two sources have one form: the common checks, then the shapes, and then the command answers OK. -/
theorem exec_of_hasSources (h : HasSources i r1 r2) (s : State) :
    i.reads = [r1, r2] ∧ ∃ body : Instance → Instance → Result, (∀ x y, AnswersOk (body x y)) ∧
      exec i s = withSources s i.uses r1 r2 fun x y =>
        if sameShape x y then body x y else .next (s.raise .precisionMismatch) := by
  obtain h | ⟨rd, h⟩ := h
  · simp only [List.mem_cons, List.not_mem_nil, or_false] at h
    obtain rfl | rfl | rfl | rfl | rfl | rfl | rfl := h <;> exact ⟨rfl, _, fun _ _ => answersOk_answer s _, rfl⟩
  · simp only [List.mem_cons, List.not_mem_nil, or_false] at h
    obtain rfl | rfl | rfl | rfl := h <;> exact ⟨rfl, _, fun _ _ => answersOk_writeOk s rd _, rfl⟩

theorem sameShape_eq_false_iff : sameShape x y = false ↔ x.ml ≠ y.ml ∨ x.el ≠ y.el := by
  rw [← Bool.not_eq_true, sameShape_iff, not_and_or]

theorem exec_of_cause (h : ErrorCause i s e) : exec i s = .next (s.raise e) := by
  cases e with
  | configurationError =>
    obtain ⟨⟨rd, rfl | rfl | rfl⟩, hw, hv, hl⟩ := h
    · exact (withDest_of_lt (lt_nreg_of_writes rfl hw) _).trans (withWidths_of_not_legal hl _)
    · exact (withDest_of_lt (lt_nreg_of_writes rfl hw) _).trans (withWidths_of_not_legal hl _)
    · obtain ⟨n, hn⟩ := valid_iff.1 (hv rd List.mem_cons_self)
      exact exec_cast_of_not_legal ⟨lt_nreg_of_writes rfl hw, hn⟩ hl
  | lengthMismatch =>
    obtain ⟨rd, n, hh, ⟨rfl, hd⟩ | ⟨rfl, hd⟩⟩ := h
    · exact (withSource_of_holds hh _).trans (setField_of_length_ne hd)
    · exact (withSource_of_holds hh _).trans (setField_of_length_ne hd)
  | precisionMismatch =>
    obtain ⟨hw, r1, r2, x, y, hi, hx, hy, hne⟩ := h
    obtain ⟨-, body, -, hex⟩ := exec_of_hasSources hi s
    rw [hex, withSources_of_valid hw hx hy, sameShape_eq_false_iff.2 hne]
    rfl
  | noInstance =>
    obtain ⟨hw, r, hr, hn⟩ := h
    exact exec_of_invalid hw hr hn
  | illegalCommand => exact exec_of_not_wellFormed h

/-! ### A command without a cause answers OK -/

section WithoutCause

variable (h : ∀ e, ¬ ErrorCause i s e)
include h

theorem wellFormed_of_no_cause : i.wellFormed s.params = true :=
  Bool.of_not_eq_false (h .illegalCommand)

theorem inst_of_no_cause (hr : r ∈ i.reads) : ∃ n, s.inst r = some n :=
  Option.ne_none_iff_exists'.1 fun hn => h .noInstance ⟨wellFormed_of_no_cause h, r, hr, hn⟩

theorem legalWidths_of_no_cause {rd : Reg} (hi : i = .new rd ∨ i = .newv rd ∨ i = .cast rd) :
    LegalWidths s.params s.ports.a s.ports.b :=
  not_not.1 fun hl => h .configurationError
    ⟨⟨rd, hi⟩, wellFormed_of_no_cause h, fun _ hr => valid_iff.2 (inst_of_no_cause h hr), hl⟩

theorem answersOk_of_hasSources (hi : HasSources i r1 r2) : AnswersOk (exec i s) := by
  obtain ⟨hreads, body, hok, hex⟩ := exec_of_hasSources hi s
  obtain ⟨x, hx⟩ := inst_of_no_cause h (r := r1) (by simp [hreads])
  obtain ⟨y, hy⟩ := inst_of_no_cause h (r := r2) (by simp [hreads])
  have hw := wellFormed_of_no_cause h
  have hshape : sameShape x y = true := Bool.of_not_eq_false fun hne =>
    h .precisionMismatch ⟨hw, r1, r2, x, y, hi, hx, hy, sameShape_eq_false_iff.1 hne⟩
  rw [hex, withSources_of_valid hw hx hy, if_pos hshape]
  exact hok x y

/-- A command that reads one register answers OK when its body does so on the instance held there. -/
theorem answersOk_of_withSource {body : Instance → Result} (hr : r ∈ i.reads)
    (hbody : ∀ n, s.inst r = some n → AnswersOk (body n)) : AnswersOk (withSource s i.uses r body) := by
  obtain ⟨n, hn⟩ := inst_of_no_cause h hr
  rw [withSource_of_valid (wellFormed_of_no_cause h) hn]
  exact hbody n hn

theorem exec_answersOk : AnswersOk (exec i s) := by
  have hw := wellFormed_of_no_cause h
  cases i with
  | new rd => exact ⟨_, _, exec_new (lt_nreg_of_writes rfl hw) (legalWidths_of_no_cause h (.inl rfl)), rfl⟩
  | newv rd => exact ⟨_, _, exec_newv (lt_nreg_of_writes rfl hw) (legalWidths_of_no_cause h (.inr (.inl rfl))), rfl⟩
  | getval _ | getml _ | getel _ | getlen _ | getbits _ | iszero _ | isnan _ | isinf _ | ispos _ =>
    exact answersOk_of_withSource h List.mem_cons_self fun _ _ => answersOk_answer s _
  | setsign _ _ | setzero _ _ | setnan _ _ | setinf _ _ | copy _ _ =>
    exact answersOk_of_withSource h List.mem_cons_self fun _ _ => answersOk_writeOk s _ _
  | setmant rd =>
    refine answersOk_of_withSource h List.mem_cons_self fun n hn => ?_
    have hd : s.ports.d.length = n.ml := not_not.1 fun hne =>
      h .lengthMismatch ⟨rd, n, ⟨lt_nreg_of_writes rfl hw, hn⟩, .inl ⟨rfl, hne⟩⟩
    exact ⟨_, _, setField_of_length hd, rfl⟩
  | setexp rd =>
    refine answersOk_of_withSource h List.mem_cons_self fun n hn => ?_
    have hd : s.ports.d.length = n.el := not_not.1 fun hne =>
      h .lengthMismatch ⟨rd, n, ⟨lt_nreg_of_writes rfl hw, hn⟩, .inr ⟨rfl, hne⟩⟩
    exact ⟨_, _, setField_of_length hd, rfl⟩
  | cast rd =>
    refine answersOk_of_withSource h List.mem_cons_self fun n _ => ?_
    rw [withWidths_of_legal (legalWidths_of_no_cause h (.inr (.inr rfl)))]
    split
    · exact answersOk_answer s _
    · exact answersOk_writeOk s _ _
  | add rd r1 r2 | sub rd r1 r2 | mul rd r1 r2 | div rd r1 r2 =>
    exact answersOk_of_hasSources h (r1 := r1) (r2 := r2) (.inr ⟨rd, by simp⟩)
  | eq r1 r2 | ne r1 r2 | lt r1 r2 | le r1 r2 | gt r1 r2 | ge r1 r2 | chkprec r1 r2 =>
    exact answersOk_of_hasSources h (r1 := r1) (r2 := r2) (.inl (by simp))

end WithoutCause

/-- Causes decide: a decoded command answers an error exactly when it has that error's cause. -/
theorem exec_error_iff (h : exec i s = .next t) : t.response = some (.error e) ↔ ErrorCause i s e := by
  constructor
  · intro he
    by_cases hc : ∃ e', ErrorCause i s e'
    · obtain ⟨e', hc⟩ := hc
      obtain rfl := next_inj (h.symm.trans (exec_of_cause hc))
      cases he
      exact hc
    · obtain ⟨u, p, hu, hp⟩ := exec_answersOk (not_exists.1 hc)
      obtain rfl := next_inj (h.symm.trans hu)
      cases he.symm.trans hp
  · intro hc
    rw [next_inj (h.symm.trans (exec_of_cause hc)), raise_response]

/-! ### The statements -/

/-- Settles O48: the cause of ConfigurationError. -/
theorem configurationErrorExactly : Obligations.ConfigurationErrorExactly := fun _ _ _ => exec_error_iff

/-- Settles O49: the cause of LengthMismatch. -/
theorem lengthMismatchExactly : Obligations.LengthMismatchExactly := fun _ _ _ => exec_error_iff

/-- Settles O50: the cause of PrecisionMismatch. -/
theorem precisionMismatchExactly : Obligations.PrecisionMismatchExactly := fun _ _ _ => exec_error_iff

/-- Settles O51: the cause of NoInstance; NEW and NEWV read no register. -/
theorem noInstanceExactly : Obligations.NoInstanceExactly := by
  intro i s t h
  refine ⟨exec_error_iff h, fun rd hi he => ?_⟩
  obtain ⟨-, r, hr, -⟩ := (exec_error_iff h).1 he
  obtain rfl | rfl := hi
  · cases hr
  · cases hr

/-- Settles O52: the error has a cause, and a command that has one leaves `State.raise`. -/
theorem errorsChangeNothing : Obligations.ErrorsChangeNothing := fun _ _ _ _ h he =>
  next_inj (h.symm.trans (exec_of_cause ((exec_error_iff h).1 he)))

/-- Settles O53: the decoder first, then check 3, then check 4. -/
theorem errorPriority : Obligations.ErrorPriority :=
  ⟨fun _ _ _ hd => runCommand_of_error hd, fun _ _ => exec_of_not_wellFormed, fun _ _ _ => exec_of_invalid⟩

/-- Every command leaves a response. -/
theorem exec_response (h : exec i s = .next t) : ∃ q, t.response = some q := by
  obtain ⟨e, rfl⟩ | ⟨p, rfl⟩ | ⟨rd, n, -, rfl⟩ := exec_effect h
  · exact ⟨_, rfl⟩
  · exact ⟨_, rfl⟩
  · exact ⟨_, rfl⟩

/-- A presented command ends, keeps the parameters and the later events, and is answered. -/
theorem runCommand_goes_on (c : Command) (s : State) : ∃ t, runCommand c s = .next t ∧ t.params = s.params ∧
    t.inbox = s.inbox ∧ t.ports = c.ports ∧ ∃ q, t.response = some q := by
  cases hd : decode c.cw with
  | error e => exact ⟨_, runCommand_of_error hd, rfl, rfl, rfl, _, rfl⟩
  | ok i =>
    obtain ⟨t, ht⟩ := exec_goes_on i { s with ports := c.ports }
    obtain ⟨hparams, hports, hinbox, -⟩ := exec_frame ht
    exact ⟨t, (runCommand_of_ok hd).trans ht, hparams, hinbox, hports, exec_response ht⟩

/-- Settles O4: by the kind of the event that is next. -/
theorem everyStepGoesOn : Obligations.EveryStepGoesOn := by
  intro s
  cases hin : s.inbox with
  | nil => exact ⟨_, step_of_idle hin, rfl, nofun⟩
  | cons ev rest =>
    cases ev with
    | reset => exact ⟨_, step_of_reset hin, rfl, nofun⟩
    | command c =>
      obtain ⟨t, ht, hparams, hinbox, hports, hq⟩ := runCommand_goes_on c { s with inbox := rest }
      refine ⟨t, (step_of_command hin).trans ht, hparams, fun c' rest' hc => ?_⟩
      cases hc
      exact ⟨hinbox, hports, hq⟩

theorem error_code_lt (e : Error) : e.code.toNat < 6 := by cases e <;> decide

/-- Settles O47: the codes, written out. -/
theorem statusCodes : Obligations.StatusCodes := by
  refine ⟨fun _ => rfl, rfl, rfl, rfl, rfl, rfl, fun r => ?_⟩
  cases r with
  | ok p => exact Nat.zero_lt_succ 5
  | error e => exact error_code_lt e

end Sys2Proof.Machine

/-! Reset is the only event that takes a `valid` bit from 1 to 0 (70_reset_and_hazards.md R240). -/

namespace Sys2Proof.Machine

variable {s t : State} {r : Reg}

/-- Either the reset input is taken, or the step keeps every instance valid. An idle step and an undecodable word leave
the registers alone, and a command keeps validity by `exec_keeps_valid`. -/
theorem step_takes_reset_or_keeps_valid (h : step s = .next t) (hr : s.valid r = true) :
    (∃ rest, s.inbox = .reset :: rest) ∨ t.valid r = true := by
  obtain ⟨-, rfl⟩ | ⟨rest, hreset, -⟩ | ⟨c, rest, i, -, -, hex⟩ | ⟨c, rest, e, -, -, rfl⟩ := step_cases h
  · exact .inr hr
  · exact .inl ⟨rest, hreset⟩
  · exact .inr (exec_keeps_valid (s := { s with inbox := rest, ports := c.ports }) hex hr)
  · exact .inr hr

/-- Settles O57: a step that takes no reset keeps the register valid. -/
theorem onlyResetInvalidates : Obligations.OnlyResetInvalidates := fun _ _ _ h hr ht =>
  (step_takes_reset_or_keeps_valid h hr).resolve_right (Bool.eq_false_iff.1 ht)

end Sys2Proof.Machine
